-- ==== Sys2Proof/Word.lean ====
section
/-! DEFINITION. The word types of the core: 00_scope R4 (widths), R6 (bit 0 is least significant).
The spec treats these as bits: it adds, shifts, masks and XORs them. -/

namespace Sys2Proof

/-- The contents of a general register, a timer, `sp` or a memory byte (10_state R20, R28, R31, R32). -/
abbrev Byte := BitVec 8

/-- `pc`, `index`, a stack slot, an instruction word (10_state R24, R27, R29; 30_encoding R70). -/
abbrev Word := BitVec 16

/-- One row of `video`; pixel column k is bit 63 - k (10_state R33). -/
abbrev Row := BitVec 64

/-- The number of a general register, V0 to VF (10_state R20). -/
abbrev Reg := Fin 16

/-- The number of a key, 0 to 15 (10_state R34). -/
abbrev Key := Fin 16

/-- The flag register VF (10_state R22). -/
abbrev VF : Reg := 15

end Sys2Proof
end

