-- ==== Sys2Proof/Config.lean ====
section
/-! DEFINITION. What the spec leaves to the machine or to its environment (00_scope R5). Each is a constant with
no body: nothing can evaluate it, so a theorem about the model holds whatever its value is. -/

namespace Sys2Proof

/-- The two values of the parameter VF_WRITE_ORDER (42_alu R141, 92_eei_decisions D6). -/
inductive VfWriteOrder where
  | flagLast
  | resultLast
  deriving DecidableEq, Repr, Inhabited

/-- FONT_BASE, the address of the first font byte: open (92_eei_decisions D9), and at most 0x1B0 by 70_reset R263,
which the type says. Log entry 1. -/
opaque Config.fontBase : Fin 0x1B1

/-- FONT_GLYPHS, the 80 font bytes, five to a glyph: a parameter (43_index_memory R173, 92_eei_decisions D10).
Log entry 2. -/
opaque Config.fontGlyphs : Vector Byte 80

/-- VF_WRITE_ORDER: which write wins when a flag-writing 8XYn has X = 15 (42_alu R141, 92_eei_decisions D6).
Log entry 3. -/
opaque Config.vfWriteOrder : VfWriteOrder

/-- The byte that draw n of random stream k gives: a free value for each k and n (45_io R210, 92_eei_decisions D13). It
is what a source gives beyond the bytes that the host put into it. Log entry 4. -/
opaque Config.randByte : Nat → Nat → Byte

/-- The default of FONT_GLYPHS (93_implementation_defined section 3), in glyph order: a font the Initializer may be
given. Nothing in the model says that `Config.fontGlyphs` is this font. Log entry 2. -/
def Config.standardGlyphs : Vector Byte 80 :=
  ⟨(([0xF0, 0x90, 0x90, 0x90, 0xF0] ++ [0x20, 0x60, 0x20, 0x20, 0x70] ++
     [0xF0, 0x10, 0xF0, 0x80, 0xF0] ++ [0xF0, 0x10, 0xF0, 0x10, 0xF0]) ++
    ([0x90, 0x90, 0xF0, 0x10, 0x10] ++ [0xF0, 0x80, 0xF0, 0x10, 0xF0] ++
     [0xF0, 0x80, 0xF0, 0x90, 0xF0] ++ [0xF0, 0x10, 0x20, 0x40, 0x40]) ++
    ([0xF0, 0x90, 0xF0, 0x90, 0xF0] ++ [0xF0, 0x90, 0xF0, 0x10, 0xF0] ++
     [0xF0, 0x90, 0xF0, 0x90, 0x90] ++ [0xE0, 0x90, 0xE0, 0x90, 0xE0]) ++
    ([0xF0, 0x80, 0x80, 0x80, 0xF0] ++ [0xE0, 0x90, 0x90, 0x90, 0xE0] ++
     [0xF0, 0x80, 0xF0, 0x80, 0xF0] ++ [0xF0, 0x80, 0xF0, 0x80, 0x80]) : List Byte).toArray, rfl⟩

end Sys2Proof
end

