-- ==== Sys2Proof/Machine/State.lean ====
section
/-! DEFINITION. The machine's state as plain data: 10_state (Machine State, the whole of it), with the fault mark of
60_exceptions R232 and the random source, which the model holds in the state (60_exceptions R245). -/

namespace Sys2Proof.Machine

/-- Memory (10_state R32; 20_memory R50) as the list of its bytes that differ from what an unlisted address reads as,
addresses strictly rising (log entry 7). `Memory.wf` in Machine/Ops.lean says the form holds. -/
abbrev Memory := List Host.Cell

/-- What `InvalidOpcode` records: the address a word was fetched from and the word (60_exceptions R230). -/
structure InvalidOpcode where
  addr : Word
  word : Word
  deriving DecidableEq, Repr

/-- A random source as the host supplies it (40_fetch R113; 60_exceptions R245). It gives the bytes of `queued` first, in
order, and after them the bytes of the stream numbered `stream`, of which `drawn` have been given. A host may put any
finite sequence of bytes into it, and may choose the stream, as one chooses a generator's seed (log entry 4). -/
structure RandomSource where
  queued : List Byte
  stream : Nat
  drawn : Nat
  deriving DecidableEq, Repr

/-- The machine's state. -/
structure State where
  /-- V0 to VF (10_state R20) -/
  v : Vector Byte 16
  /-- the program counter (R24) -/
  pc : Word
  /-- the index register I (R27) -/
  index : Word
  /-- the stack pointer (R28) -/
  sp : Byte
  /-- the ring of return addresses (R29) -/
  stack : Vector Word 16
  /-- DT (R31) -/
  delayTimer : Byte
  /-- ST (R31) -/
  soundTimer : Byte
  /-- the 4096 bytes of memory (R32) -/
  mem : Memory
  /-- the framebuffer (R33) -/
  video : Vector Row 32
  /-- the key states, written by the host only (R34) -/
  keypad : Vector Bool 16
  /-- the fault mark (60_exceptions R232) -/
  fault : Option InvalidOpcode
  /-- the random source that `RND` draws from: an input of the run, set by the host, that the state holds (40_fetch R113;
  60_exceptions R245, "held in the state"; log entry 4) -/
  source : RandomSource
  deriving DecidableEq, Repr

/-- The state after reset with no ROM bytes loaded (70_reset R260): `pc` is 0x200 and every other field zero or false.
Nothing of memory is listed, so it holds the font and zeros (`unlistedByte` in Machine/Ops.lean). The random
source is an input and no part of the reset table: here it is stream 0 with nothing queued, a DESIGN CHOICE (log entry
4), and `initialise` takes it from the host. -/
def State.reset : State where
  v := Vector.replicate 16 0
  pc := 0x200
  index := 0
  sp := 0
  stack := Vector.replicate 16 0
  delayTimer := 0
  soundTimer := 0
  mem := []
  video := Vector.replicate 32 0
  keypad := Vector.replicate 16 false
  fault := none
  source := ⟨[], 0, 0⟩

/-- Why a step stops. -/
inductive Fault where
  /-- `InvalidOpcode(addr, word)`, the core's only error, with code 0 (60_exceptions R230, D12). Raised by the step
  that fetches an illegal word. Safe: the spec itself stops there (log entry 6). -/
  | invalidOpcode (addr word : Word)
  /-- A step asked of a state that carries the fault mark, from which no step is defined (60_exceptions R232). Raised
  by `fetch`. Safe: the model stops (log entry 6). -/
  | noStepAfterFault (addr word : Word)
  deriving DecidableEq, Repr

/-- Why the model gives no answer. -/
inductive Refusal where
  /-- An instruction with no meaning yet. No arm of `exec` answers it. Safe. -/
  | notModelled (mnemonic : String)
  /-- A ROM image of more than 3584 bytes, refused by `initialise` (70_reset R262, D19). No step answers it. Safe. -/
  | romTooLong (length : Nat)
  deriving DecidableEq, Repr

end Sys2Proof.Machine
end

