-- ==== Sys2Proof/Machine/Ops.lean ====
section
/-! DEFINITION. The named operations over registers, memory, the stack, `pc` and the fault mark: the pseudocode
primitives of 00_scope R8. Every address, slot and key number is reduced where it is used, so that no access can fail
(20_memory R52; 60_exceptions R231). -/

namespace Sys2Proof.Machine

/-! ### Registers -/

/-- `n mod 4096` as a 16-bit register holds it (10_state R24, R27). -/
def wrapAddr (n : Nat) : Word := BitVec.ofNat 16 (n % 4096)

/-- `V[x]`. -/
def readReg (s : State) (x : Reg) : Byte := s.v[x.val]

/-- `V[x] <- b`. -/
def writeReg (x : Reg) (b : Byte) (s : State) : State := { s with v := s.v.set x.val b }

/-- `I <- n mod 4096`. -/
def setIndex (n : Nat) (s : State) : State := { s with index := wrapAddr n }

/-- `DT <- b`. -/
def setDelay (b : Byte) (s : State) : State := { s with delayTimer := b }

/-- `ST <- b`. -/
def setSound (b : Byte) (s : State) : State := { s with soundTimer := b }

/-! ### The program counter -/

/-- `pc <- n mod 4096`. -/
def setPc (n : Nat) (s : State) : State := { s with pc := wrapAddr n }

/-- `pc <- (pc + 2) mod 4096`: the advance after a fetch (40_fetch R101) and a taken skip (41_control_flow R123). -/
def advancePc (s : State) : State := setPc (s.pc.toNat + 2) s

/-- The skip mechanism (41_control_flow R123). -/
def skipIf (c : Bool) (s : State) : State := if c then advancePc s else s

/-- `pc <- (pc - 2) mod 4096` (45_io R215); modulo 4096, to subtract 2 is to add 4094.
The literal stands on the left so that unfolding does not count it down. -/
def rewindPc (s : State) : State := setPc (4094 + s.pc.toNat) s

/-! ### The stack (10_state R28, R29) -/

/-- The slot that a stack pointer value names, modulo 16. -/
def slotOf (sp : Byte) : Fin 16 := ⟨sp.toNat % 16, Nat.mod_lt _ (by decide)⟩

/-- `sp + 1` modulo 16. -/
def nextSp (sp : Byte) : Byte := BitVec.ofNat 8 ((sp.toNat + 1) % 16)

/-- `sp - 1` modulo 16. -/
def prevSp (sp : Byte) : Byte := BitVec.ofNat 8 ((sp.toNat + 15) % 16)

/-- `stack[k]`. -/
def readSlot (s : State) (k : Fin 16) : Word := s.stack[k.val]

/-- `stack[k] <- w`. -/
def writeSlot (k : Fin 16) (w : Word) (s : State) : State := { s with stack := s.stack.set k.val w }

/-- `stack[sp] <- pc; sp <- (sp + 1) mod 16` (41_control_flow R122). -/
def pushPc (s : State) : State :=
  { writeSlot (slotOf s.sp) s.pc s with sp := nextSp s.sp }

/-- `sp <- (sp - 1) mod 16; pc <- stack[sp] mod 4096` (41_control_flow R120). -/
def popPc (s : State) : State :=
  setPc (readSlot s (slotOf (prevSp s.sp))).toNat { s with sp := prevSp s.sp }

/-! ### The random source (40_fetch R113; 45_io R210) -/

/-- `draw_rand()`: the byte that the next draw gives, a byte the host queued or else a free value (log entry 4). -/
def drawnByte (s : State) : Byte :=
  match s.source.queued with
  | b :: _ => b
  | [] => Config.randByte s.source.stream s.source.drawn

/-- The source after a draw. -/
def afterDraw (r : RandomSource) : RandomSource :=
  match r.queued with
  | _ :: bs => { r with queued := bs }
  | [] => { r with drawn := r.drawn + 1 }

/-- The state after a draw. -/
def takeDraw (s : State) : State := { s with source := afterDraw s.source }

/-! ### Memory -/

/-- Byte k of the font table, `FONT_GLYPHS[k]`. -/
def glyphByte (k : Nat) : Byte := if h : k < 80 then Config.fontGlyphs[k] else 0

/-- FONT_BASE as an address. -/
def fontBase : Nat := Config.fontBase.val

/-- What an address that memory does not list reads as: its contents after reset with no ROM (70_reset R260), the font
at FONT_BASE and zero elsewhere. The font lies below 0x200 (R263). -/
def unlistedByte (a : Nat) : Byte :=
  if 0x200 ≤ a then 0
  else if fontBase ≤ a ∧ a < fontBase + 80 then glyphByte (a - fontBase)
  else 0

/-- The byte at an address below 4096. -/
def readCell : Memory → Nat → Byte
  | [], a => unlistedByte a
  | (k, b) :: m, a => if k = a then b else readCell m a

/-- Memory with one byte replaced, in canonical form: no entry is kept that equals what an unlisted address reads as. -/
def writeCell : Memory → Nat → Byte → Memory
  | [], a, b => if b = unlistedByte a then [] else [(a, b)]
  | (k, c) :: m, a, b =>
    if k < a then (k, c) :: writeCell m a b
    else if k = a then (if b = unlistedByte a then m else (a, b) :: m)
    else if b = unlistedByte a then (k, c) :: m
    else (a, b) :: (k, c) :: m

/-- The canonical form from an address on: addresses at least `lo`, strictly rising and below 4096, and no entry equal
to what an unlisted address reads as. -/
def Memory.wfFrom : Nat → Memory → Bool
  | _, [] => true
  | lo, (a, b) :: m => decide (lo ≤ a) && decide (a < 4096) && decide (b ≠ unlistedByte a) && Memory.wfFrom (a + 1) m

/-- Memory is in canonical form. -/
def Memory.wf (m : Memory) : Bool := Memory.wfFrom 0 m

/-- `MemRead(a, 1)`: the byte at `a mod 4096` (20_memory R52, R53). -/
def memRead (s : State) (a : Nat) : Byte := readCell s.mem (a % 4096)

/-- `MemWrite(a, 1, b)`: the byte at `a mod 4096` becomes b (20_memory R53). -/
def memWrite (a : Nat) (b : Byte) (s : State) : State := { s with mem := writeCell s.mem (a % 4096) b }

/-- Store bytes at consecutive addresses from a, each address modulo 4096 on its own (43_index_memory R175). -/
def storeBytes : Nat → List Byte → State → State
  | _, [], s => s
  | a, b :: bs, s => storeBytes (a + 1) bs (memWrite a b s)

/-! ### Taking InvalidOpcode (60_exceptions R230 to R235)

There is no return from it: no instruction resumes after the error and no rule clears the mark (R235). The only
recovery is a new state, `initialise` in Machine/Cycle.lean. -/

/-- The state that `InvalidOpcode(a, w)` leaves behind: the state after the fetch, `pc` advanced and everything else as
before, marked faulted (R232, R233). -/
def takeInvalidOpcode (a w : Word) (s : State) : State := { advancePc s with fault := some ⟨a, w⟩ }

/-- The state that a stop leaves to the host (R233); a step refused for the mark changes nothing (R232). -/
def leftBehind (f : Fault) (s : State) : State :=
  match f with
  | .invalidOpcode a w => takeInvalidOpcode a w s
  | .noStepAfterFault _ _ => s

end Sys2Proof.Machine
end

