-- ==== Sys2Proof/Machine/Operands.lean ====
section
/-! DEFINITION. The operand forms (30_encoding R72, R73): a literal byte, an address, a general register, the byte at
I + offset, a key chosen by a register, the range V0 to Vx, the sprite anchor. -/

namespace Sys2Proof.Machine

/-- `bool(c)` as a byte (00_scope R7). -/
def boolByte (c : Bool) : Byte := if c then 1 else 0

/-- The address `I + k`; memory reduces it modulo 4096 (43_index_memory R175). -/
def indexed (s : State) (k : Nat) : Nat := s.index.toNat + k

/-- The key that a register value names, modulo 16 (45_io R211). -/
def keyOf (b : Byte) : Key := ⟨b.toNat % 16, Nat.mod_lt _ (by decide)⟩

/-- `keypad[k]`. -/
def keyDown (s : State) (k : Key) : Bool := s.keypad[k.val]

/-- The lowest pressed key, if a key is pressed (45_io R215). -/
def lowestKey (s : State) : Option Key := (List.finRange 16).find? fun k => keyDown s k

/-- V0 to Vx inclusive, in order (43_index_memory R176). -/
def regsThrough (x : Reg) (s : State) : List Byte := s.v.toList.take (x.val + 1)

/-- V0 to Vx inclusive loaded from memory at I; the registers above x stay (43_index_memory R177). -/
def loadThrough (x : Reg) (s : State) : State :=
  { s with v := Vector.ofFn fun i : Fin 16 => if i ≤ x then memRead s (indexed s i.val) else readReg s i }

/-- The decimal digits of a byte: hundreds, tens, ones (43_index_memory R174). -/
def bcdDigits (b : Byte) : List Byte :=
  [BitVec.ofNat 8 (b.toNat / 100), BitVec.ofNat 8 (b.toNat / 10 % 10), BitVec.ofNat 8 (b.toNat % 10)]

/-- The anchor column, `V[x] mod 64` (44_display R191). -/
def anchorCol (s : State) (x : Reg) : Nat := (readReg s x).toNat % 64

/-- The anchor row, `V[y] mod 32` (44_display R191). -/
def anchorRow (s : State) (y : Reg) : Nat := (readReg s y).toNat % 32

end Sys2Proof.Machine
end

