-- ==== Sys2Proof/Machine/Flags.lean ====
section
/-! DEFINITION. The flag computations (42_alu R148 to R152) and the one write of a result and its flag (R141). Every
flag is a function of the operands' prior values. -/

namespace Sys2Proof.Machine

/-- The carry of an addition: the 9-bit sum exceeds 255 (42_alu R148). -/
def carryFlag (a b : Byte) : Bool := 255 < a.toNat + b.toNat

/-- The no-borrow flag of `a - b`: strictly greater (42_alu R149, R151; 90_conflicts C9). -/
def noBorrowFlag (a b : Byte) : Bool := b.toNat < a.toNat

/-- The bit that a right shift moves out, bit 0 (42_alu R150). -/
def shrFlag (a : Byte) : Bool := a.getLsbD 0

/-- The bit that a left shift moves out, bit 7 (42_alu R152). -/
def shlFlag (a : Byte) : Bool := a.getLsbD 7

/-- `WriteResultAndFlag(x, r, f)` of 42_alu R141 for one value of VF_WRITE_ORDER: two writes to different registers
unless x = 15, where the later one wins. -/
def writeResultAndFlagBy (order : VfWriteOrder) (x : Reg) (r : Byte) (f : Bool) (s : State) : State :=
  if x = VF then
    match order with
    | .flagLast => writeReg VF (boolByte f) s
    | .resultLast => writeReg VF r s
  else writeReg VF (boolByte f) (writeReg x r s)

/-- `WriteResultAndFlag(x, r, f)` for the machine's own VF_WRITE_ORDER (log entry 3). -/
def writeResultAndFlag (x : Reg) (r : Byte) (f : Bool) (s : State) : State :=
  writeResultAndFlagBy Config.vfWriteOrder x r f s

end Sys2Proof.Machine
end

