-- ==== Sys2Proof/Machine/Alu.lean ====
section
/-! DEFINITION. The ALU: 42_alu. Operands are read before any write (R140); arithmetic wraps modulo 256. -/

namespace Sys2Proof.Machine

/-- `LD Vx, byte` (42_alu R142). -/
def execLdImm (x : Reg) (nn : Byte) (s : State) : Host.Outcome State Fault Refusal := .next (writeReg x nn s)

/-- `ADD Vx, byte` (R143): no flag. -/
def execAddImm (x : Reg) (nn : Byte) (s : State) : Host.Outcome State Fault Refusal :=
  .next (writeReg x (readReg s x + nn) s)

/-- `LD Vx, Vy` (R144). -/
def execLdReg (x y : Reg) (s : State) : Host.Outcome State Fault Refusal := .next (writeReg x (readReg s y) s)

/-- `OR Vx, Vy` (R145). -/
def execOrReg (x y : Reg) (s : State) : Host.Outcome State Fault Refusal :=
  .next (writeReg x (readReg s x ||| readReg s y) s)

/-- `AND Vx, Vy` (R146). -/
def execAndReg (x y : Reg) (s : State) : Host.Outcome State Fault Refusal :=
  .next (writeReg x (readReg s x &&& readReg s y) s)

/-- `XOR Vx, Vy` (R147). -/
def execXorReg (x y : Reg) (s : State) : Host.Outcome State Fault Refusal :=
  .next (writeReg x (readReg s x ^^^ readReg s y) s)

/-- `ADD Vx, Vy` (R148). -/
def execAddReg (x y : Reg) (s : State) : Host.Outcome State Fault Refusal :=
  .next (writeResultAndFlag x (readReg s x + readReg s y) (carryFlag (readReg s x) (readReg s y)) s)

/-- `SUB Vx, Vy` (R149). -/
def execSub (x y : Reg) (s : State) : Host.Outcome State Fault Refusal :=
  .next (writeResultAndFlag x (readReg s x - readReg s y) (noBorrowFlag (readReg s x) (readReg s y)) s)

/-- `SHR Vx` (R150): V[x] is shifted and Y is ignored (decision D4, log entry 11). -/
def execShr (x _y : Reg) (s : State) : Host.Outcome State Fault Refusal :=
  .next (writeResultAndFlag x (readReg s x >>> 1) (shrFlag (readReg s x)) s)

/-- `SUBN Vx, Vy` (R151): the result goes to V[x]. -/
def execSubn (x y : Reg) (s : State) : Host.Outcome State Fault Refusal :=
  .next (writeResultAndFlag x (readReg s y - readReg s x) (noBorrowFlag (readReg s y) (readReg s x)) s)

/-- `SHL Vx` (R152): V[x] is shifted and Y is ignored (decision D4, log entry 11). -/
def execShl (x _y : Reg) (s : State) : Host.Outcome State Fault Refusal :=
  .next (writeResultAndFlag x (readReg s x <<< 1) (shlFlag (readReg s x)) s)

end Sys2Proof.Machine
end

