-- ==== Sys2Proof/Machine/Control.lean ====
section
/-! DEFINITION. Control flow: 41_control_flow. `pc` already holds the instruction's address + 2 (40_fetch R101). -/

namespace Sys2Proof.Machine

/-- `RET` (41_control_flow R120). -/
def execRet (s : State) : Host.Outcome State Fault Refusal := .next (popPc s)

/-- `JP addr` (R121). -/
def execJp (nnn : BitVec 12) (s : State) : Host.Outcome State Fault Refusal := .next (setPc nnn.toNat s)

/-- `CALL addr` (R122). -/
def execCall (nnn : BitVec 12) (s : State) : Host.Outcome State Fault Refusal := .next (setPc nnn.toNat (pushPc s))

/-- `SE Vx, byte` (R124). -/
def execSeImm (x : Reg) (nn : Byte) (s : State) : Host.Outcome State Fault Refusal :=
  .next (skipIf (readReg s x == nn) s)

/-- `SNE Vx, byte` (R125). -/
def execSneImm (x : Reg) (nn : Byte) (s : State) : Host.Outcome State Fault Refusal :=
  .next (skipIf (readReg s x != nn) s)

/-- `SE Vx, Vy` (R126). -/
def execSeReg (x y : Reg) (s : State) : Host.Outcome State Fault Refusal :=
  .next (skipIf (readReg s x == readReg s y) s)

/-- `SNE Vx, Vy` (R127). -/
def execSneReg (x y : Reg) (s : State) : Host.Outcome State Fault Refusal :=
  .next (skipIf (readReg s x != readReg s y) s)

/-- `JP V0, addr` (R129): the base register is always V0. -/
def execJpV0 (nnn : BitVec 12) (s : State) : Host.Outcome State Fault Refusal :=
  .next (setPc ((readReg s 0).toNat + nnn.toNat) s)

end Sys2Proof.Machine
end

