-- ==== Sys2Proof/Machine/Display.lean ====
section
/-! DEFINITION. The display: 44_display. -/

namespace Sys2Proof.Machine

/-- A sprite byte placed in a row with its first pixel at column `col` (44_display R192): the byte starts at columns 0
to 7 and is rotated right, so that it wraps to the left edge. -/
def spriteRow (b : Byte) (col : Nat) : Row := (b.zeroExtend 64 <<< 56).rotateRight col

/-- The framebuffer while a sprite is drawn, and whether a pixel has gone from on to off. -/
structure Canvas where
  video : Vector Row 32
  hit : Bool
  deriving DecidableEq, Repr

/-- The row that sprite row i goes to (44_display R193). -/
def targetRow (row i : Nat) : Fin 32 := ⟨(row + i) % 32, Nat.mod_lt _ (by decide)⟩

/-- One row of a draw (44_display R191, R194): the collision is tested against the row before its XOR. -/
def drawRow (s : State) (col row i : Nat) (c : Canvas) : Canvas :=
  let sprite := spriteRow (memRead s (indexed s i)) col
  let old := c.video[(targetRow row i).val]
  { video := c.video.set (targetRow row i).val (old ^^^ sprite)
    hit := c.hit || (old &&& sprite) != 0 }

/-- The first n rows of a draw, in order (44_display R191). -/
def drawRows (s : State) (col row : Nat) : Nat → Canvas → Canvas
  | 0, c => c
  | n + 1, c => drawRow s col row n (drawRows s col row n c)

/-- `CLS` (44_display R190). -/
def execCls (s : State) : Host.Outcome State Fault Refusal := .next { s with video := Vector.replicate 32 0 }

/-- `DRW Vx, Vy, nibble` (44_display R191): the anchor is read before VF is written (decision D5, log entry 14), and VF
ends as 1 exactly when a row collided (R194). -/
def execDrw (x y : Reg) (n : Nat) (s : State) : Host.Outcome State Fault Refusal :=
  let drawn := drawRows s (anchorCol s x) (anchorRow s y) n ⟨s.video, false⟩
  .next (writeReg VF (boolByte drawn.hit) { s with video := drawn.video })

end Sys2Proof.Machine
end

