-- ==== Sys2Proof/Machine/IndexMemory.lean ====
section
/-! DEFINITION. The index register and memory: 43_index_memory. None of these writes a flag, and the last three leave I
as it is (R175, decision D8, log entry 13). -/

namespace Sys2Proof.Machine

/-- `LD I, addr` (43_index_memory R170). -/
def execLdI (nnn : BitVec 12) (s : State) : Host.Outcome State Fault Refusal := .next (setIndex nnn.toNat s)

/-- `ADD I, Vx` (R171). -/
def execAddI (x : Reg) (s : State) : Host.Outcome State Fault Refusal :=
  .next (setIndex (s.index.toNat + (readReg s x).toNat) s)

/-- `LD F, Vx` (R172): the digit is the whole register, not its low four bits (decision D7, log entry 12). -/
def execLdF (x : Reg) (s : State) : Host.Outcome State Fault Refusal :=
  .next (setIndex (fontBase + 5 * (readReg s x).toNat) s)

/-- `LD B, Vx` (R174). -/
def execLdB (x : Reg) (s : State) : Host.Outcome State Fault Refusal :=
  .next (storeBytes (indexed s 0) (bcdDigits (readReg s x)) s)

/-- `LD [I], Vx` (R176). -/
def execStoreRegs (x : Reg) (s : State) : Host.Outcome State Fault Refusal :=
  .next (storeBytes (indexed s 0) (regsThrough x s) s)

/-- `LD Vx, [I]` (R177). -/
def execLoadRegs (x : Reg) (s : State) : Host.Outcome State Fault Refusal := .next (loadThrough x s)

end Sys2Proof.Machine
end

