-- ==== Sys2Proof/Machine/Io.lean ====
section
/-! DEFINITION. Random, keypad and timers: 45_io_timers_random. -/

namespace Sys2Proof.Machine

/-- `RND Vx, byte` (45_io R210): one draw from the source for each execution. -/
def execRnd (x : Reg) (nn : Byte) (s : State) : Host.Outcome State Fault Refusal :=
  .next (writeReg x (drawnByte s &&& nn) (takeDraw s))

/-- `SKP Vx` (R212). -/
def execSkp (x : Reg) (s : State) : Host.Outcome State Fault Refusal :=
  .next (skipIf (keyDown s (keyOf (readReg s x))) s)

/-- `SKNP Vx` (R213). -/
def execSknp (x : Reg) (s : State) : Host.Outcome State Fault Refusal :=
  .next (skipIf (!keyDown s (keyOf (readReg s x))) s)

/-- `LD Vx, DT` (R214). -/
def execLdVxDt (x : Reg) (s : State) : Host.Outcome State Fault Refusal := .next (writeReg x s.delayTimer s)

/-- `LD Vx, K` (R215): the lowest pressed key, or the same instruction again. -/
def execLdVxK (x : Reg) (s : State) : Host.Outcome State Fault Refusal :=
  match lowestKey s with
  | some k => .next (writeReg x (BitVec.ofNat 8 k.val) s)
  | none => .next (rewindPc s)

/-- `LD DT, Vx` (R216). -/
def execLdDtVx (x : Reg) (s : State) : Host.Outcome State Fault Refusal := .next (setDelay (readReg s x) s)

/-- `LD ST, Vx` (R217). -/
def execLdStVx (x : Reg) (s : State) : Host.Outcome State Fault Refusal := .next (setSound (readReg s x) s)

end Sys2Proof.Machine
end

