-- ==== Sys2Proof/Syntax.lean ====
section
/-! DEFINITION. The instruction set: the 34 instructions of 30_encoding R86, one constructor for each row of
spec/opcode_table.json, in the table's order. Each carries the fields that the table gives its row; the bits that
decoding ignores (30_encoding R79, R80, R81) are no part of an instruction. -/

namespace Sys2Proof

/-- An instruction. Register fields name V0 to VF, `nn` is an 8-bit literal, `nnn` a 12-bit address, `n` the number of
sprite rows (30_encoding R71, R72). -/
inductive Instr where
  /-- `CLS` (44_display R190) -/
  | cls
  /-- `RET` (41_control_flow R120) -/
  | ret
  /-- `JP addr` (R121) -/
  | jp (nnn : BitVec 12)
  /-- `CALL addr` (R122) -/
  | call (nnn : BitVec 12)
  /-- `SE Vx, byte` (R124) -/
  | seImm (x : Reg) (nn : Byte)
  /-- `SNE Vx, byte` (R125) -/
  | sneImm (x : Reg) (nn : Byte)
  /-- `SE Vx, Vy` (R126) -/
  | seReg (x y : Reg)
  /-- `LD Vx, byte` (42_alu R142) -/
  | ldImm (x : Reg) (nn : Byte)
  /-- `ADD Vx, byte` (R143) -/
  | addImm (x : Reg) (nn : Byte)
  /-- `LD Vx, Vy` (R144) -/
  | ldReg (x y : Reg)
  /-- `OR Vx, Vy` (R145) -/
  | orReg (x y : Reg)
  /-- `AND Vx, Vy` (R146) -/
  | andReg (x y : Reg)
  /-- `XOR Vx, Vy` (R147) -/
  | xorReg (x y : Reg)
  /-- `ADD Vx, Vy` (R148) -/
  | addReg (x y : Reg)
  /-- `SUB Vx, Vy` (R149) -/
  | sub (x y : Reg)
  /-- `SHR Vx`; Y is encoded and ignored (R150) -/
  | shr (x y : Reg)
  /-- `SUBN Vx, Vy` (R151) -/
  | subn (x y : Reg)
  /-- `SHL Vx`; Y is encoded and ignored (R152) -/
  | shl (x y : Reg)
  /-- `SNE Vx, Vy` (41_control_flow R127) -/
  | sneReg (x y : Reg)
  /-- `LD I, addr` (43_index_memory R170) -/
  | ldI (nnn : BitVec 12)
  /-- `JP V0, addr` (41_control_flow R129) -/
  | jpV0 (nnn : BitVec 12)
  /-- `RND Vx, byte` (45_io R210) -/
  | rnd (x : Reg) (nn : Byte)
  /-- `DRW Vx, Vy, nibble` (44_display R191) -/
  | drw (x y : Reg) (n : Nat)
  /-- `SKP Vx` (45_io R212) -/
  | skp (x : Reg)
  /-- `SKNP Vx` (R213) -/
  | sknp (x : Reg)
  /-- `LD Vx, DT` (R214) -/
  | ldVxDt (x : Reg)
  /-- `LD Vx, K` (R215) -/
  | ldVxK (x : Reg)
  /-- `LD DT, Vx` (R216) -/
  | ldDtVx (x : Reg)
  /-- `LD ST, Vx` (R217) -/
  | ldStVx (x : Reg)
  /-- `ADD I, Vx` (43_index_memory R171) -/
  | addI (x : Reg)
  /-- `LD F, Vx` (R172) -/
  | ldF (x : Reg)
  /-- `LD B, Vx` (R174) -/
  | ldB (x : Reg)
  /-- `LD [I], Vx` (R176) -/
  | storeRegs (x : Reg)
  /-- `LD Vx, [I]` (R177) -/
  | loadRegs (x : Reg)
  deriving DecidableEq, Repr

end Sys2Proof
end

