-- ==== Sys2Proof/Decode.lean ====
section
/-! DEFINITION. Decoding and encoding. The decoder follows the two-level dispatch of 30_encoding R74 to R85; the opcode
map of R86 stands beside it as a table of its own; the encoder writes the canonical words of R91. Opcode numbers and
field positions are the spec's own decisions D1 and D2 (log entry 5). The assembler spelling of R91 is here too. -/

namespace Sys2Proof

/-- Why bytes are no instruction. Every case but `truncated` is an illegal word, which raises InvalidOpcode
(30_encoding R88). -/
inductive Reject where
  /-- fewer than two bytes: a fetch never meets this, it always reads two (40_fetch R100) -/
  | truncated
  /-- an unassigned slot of group 0 (30_encoding R75) -/
  | group0Slot (n : BitVec 4)
  /-- an unassigned slot of group 8 (R76) -/
  | group8Slot (n : BitVec 4)
  /-- an unassigned slot of group E (R77) -/
  | groupESlot (n : BitVec 4)
  /-- an unassigned slot of group F's 102-entry table (R78) -/
  | groupFSlot (nn : Byte)
  /-- a low byte above 0x65, for which group F's table has no slot (R78, decision D11) -/
  | groupFNoSlot (nn : Byte)
  deriving DecidableEq, Repr

/-! ### Fields (30_encoding R71) -/

/-- The primary selector, bits [15:12]. -/
def opField (w : Word) : BitVec 4 := w.extractLsb' 12 4

/-- The four bits of X, [11:8]. -/
def xBits (w : Word) : BitVec 4 := w.extractLsb' 8 4

/-- The four bits of Y, [7:4]. -/
def yBits (w : Word) : BitVec 4 := w.extractLsb' 4 4

/-- N, bits [3:0]. -/
def nField (w : Word) : BitVec 4 := w.extractLsb' 0 4

/-- NN, bits [7:0]. -/
def nnField (w : Word) : Byte := w.extractLsb' 0 8

/-- NNN, bits [11:0]. -/
def nnnField (w : Word) : BitVec 12 := w.extractLsb' 0 12

/-- The register that a four-bit field names (30_encoding R72). -/
def regOfBits (b : BitVec 4) : Reg := ⟨b.toNat, b.isLt⟩

/-- X as a register. -/
def xField (w : Word) : Reg := regOfBits (xBits w)

/-- Y as a register. -/
def yField (w : Word) : Reg := regOfBits (yBits w)

/-! ### The decoder (30_encoding R85) -/

/-- Group 0 (30_encoding R75, R80): bits [11:4] are not read. -/
def decodeGroup0 (w : Word) : Except Reject Instr :=
  match (nField w).toNat with
  | 0x0 => .ok .cls
  | 0xE => .ok .ret
  | _ => .error (.group0Slot (nField w))

/-- Group 8 (30_encoding R76, R82). -/
def decodeGroup8 (w : Word) : Except Reject Instr :=
  match (nField w).toNat with
  | 0x0 => .ok (.ldReg (xField w) (yField w))
  | 0x1 => .ok (.orReg (xField w) (yField w))
  | 0x2 => .ok (.andReg (xField w) (yField w))
  | 0x3 => .ok (.xorReg (xField w) (yField w))
  | 0x4 => .ok (.addReg (xField w) (yField w))
  | 0x5 => .ok (.sub (xField w) (yField w))
  | 0x6 => .ok (.shr (xField w) (yField w))
  | 0x7 => .ok (.subn (xField w) (yField w))
  | 0xE => .ok (.shl (xField w) (yField w))
  | _ => .error (.group8Slot (nField w))

/-- Group E (30_encoding R77, R81): bits [7:4] are not read. -/
def decodeGroupE (w : Word) : Except Reject Instr :=
  match (nField w).toNat with
  | 0x1 => .ok (.sknp (xField w))
  | 0xE => .ok (.skp (xField w))
  | _ => .error (.groupESlot (nField w))

/-- Group F (30_encoding R78, R83). -/
def decodeGroupF (w : Word) : Except Reject Instr :=
  match (nnField w).toNat with
  | 0x07 => .ok (.ldVxDt (xField w))
  | 0x0A => .ok (.ldVxK (xField w))
  | 0x15 => .ok (.ldDtVx (xField w))
  | 0x18 => .ok (.ldStVx (xField w))
  | 0x1E => .ok (.addI (xField w))
  | 0x29 => .ok (.ldF (xField w))
  | 0x33 => .ok (.ldB (xField w))
  | 0x55 => .ok (.storeRegs (xField w))
  | 0x65 => .ok (.loadRegs (xField w))
  | _ => if (nnField w).toNat ≤ 0x65 then .error (.groupFSlot (nnField w)) else .error (.groupFNoSlot (nnField w))

/-- The primary dispatch (30_encoding R74, R79, R85) on a 16-bit word. The selector has four bits, so the last case is
0xF alone. -/
def decodeWord (w : Word) : Except Reject Instr :=
  match (opField w).toNat with
  | 0x0 => decodeGroup0 w
  | 0x1 => .ok (.jp (nnnField w))
  | 0x2 => .ok (.call (nnnField w))
  | 0x3 => .ok (.seImm (xField w) (nnField w))
  | 0x4 => .ok (.sneImm (xField w) (nnField w))
  | 0x5 => .ok (.seReg (xField w) (yField w))
  | 0x6 => .ok (.ldImm (xField w) (nnField w))
  | 0x7 => .ok (.addImm (xField w) (nnField w))
  | 0x8 => decodeGroup8 w
  | 0x9 => .ok (.sneReg (xField w) (yField w))
  | 0xA => .ok (.ldI (nnnField w))
  | 0xB => .ok (.jpV0 (nnnField w))
  | 0xC => .ok (.rnd (xField w) (nnField w))
  | 0xD => .ok (.drw (xField w) (yField w) (nField w).toNat)
  | 0xE => decodeGroupE w
  | _ => decodeGroupF w

/-- The word of two bytes: the byte at the lower address is bits [15:8] (20_memory R56). -/
def wordOfBytes (hi lo : Byte) : Word := BitVec.ofNat 16 (hi.toNat * 256 + lo.toNat)

/-- Bits [15:8] of a word, the byte at the lower address (20_memory R56). -/
def hiByte (w : Word) : Byte := w.extractLsb' 8 8

/-- Bits [7:0] of a word, the byte at the higher address. -/
def loByte (w : Word) : Byte := w.extractLsb' 0 8

/-- Decode the instruction at the head of a list of bytes and give the bytes that follow it. -/
def decode : List Byte → Except Reject (Instr × List Byte)
  | hi :: lo :: rest =>
    match decodeWord (wordOfBytes hi lo) with
    | .ok i => .ok (i, rest)
    | .error r => .error r
  | [_] => .error .truncated
  | [] => .error .truncated

/-! ### The opcode map (30_encoding R86) -/

/-- The mnemonic of the instruction's row in spec/opcode_table.json. -/
def Instr.mnemonic : Instr → String
  | .cls => "CLS"
  | .ret => "RET"
  | .jp _ => "JP_addr"
  | .call _ => "CALL_addr"
  | .seImm _ _ => "SE_Vx__byte"
  | .sneImm _ _ => "SNE_Vx__byte"
  | .seReg _ _ => "SE_Vx__Vy"
  | .ldImm _ _ => "LD_Vx__byte"
  | .addImm _ _ => "ADD_Vx__byte"
  | .ldReg _ _ => "LD_Vx__Vy"
  | .orReg _ _ => "OR_Vx__Vy"
  | .andReg _ _ => "AND_Vx__Vy"
  | .xorReg _ _ => "XOR_Vx__Vy"
  | .addReg _ _ => "ADD_Vx__Vy"
  | .sub _ _ => "SUB_Vx__Vy"
  | .shr _ _ => "SHR_Vx"
  | .subn _ _ => "SUBN_Vx__Vy"
  | .shl _ _ => "SHL_Vx"
  | .sneReg _ _ => "SNE_Vx__Vy"
  | .ldI _ => "LD_I__addr"
  | .jpV0 _ => "JP_V0__addr"
  | .rnd _ _ => "RND_Vx__byte"
  | .drw _ _ _ => "DRW_Vx__Vy__nibble"
  | .skp _ => "SKP_Vx"
  | .sknp _ => "SKNP_Vx"
  | .ldVxDt _ => "LD_Vx__DT"
  | .ldVxK _ => "LD_Vx__K"
  | .ldDtVx _ => "LD_DT__Vx"
  | .ldStVx _ => "LD_ST__Vx"
  | .addI _ => "ADD_I__Vx"
  | .ldF _ => "LD_F__Vx"
  | .ldB _ => "LD_B__Vx"
  | .storeRegs _ => "LD__I___Vx"
  | .loadRegs _ => "LD_Vx___I"

/-- A row of the opcode map: a word w is this instruction when `w &&& mask = pattern`, and `build w` is the instruction
with w's fields. -/
structure OpcodeRow where
  mnemonic : String
  mask : Word
  pattern : Word
  build : Word → Instr

/-- The rows with bits [15:12] from 0x0 to 0x7. -/
def opcodeMapLow : List OpcodeRow :=
  [⟨"CLS", 0xF00F, 0x0000, fun _ => .cls⟩,
   ⟨"RET", 0xF00F, 0x000E, fun _ => .ret⟩,
   ⟨"JP_addr", 0xF000, 0x1000, fun w => .jp (nnnField w)⟩,
   ⟨"CALL_addr", 0xF000, 0x2000, fun w => .call (nnnField w)⟩,
   ⟨"SE_Vx__byte", 0xF000, 0x3000, fun w => .seImm (xField w) (nnField w)⟩,
   ⟨"SNE_Vx__byte", 0xF000, 0x4000, fun w => .sneImm (xField w) (nnField w)⟩,
   ⟨"SE_Vx__Vy", 0xF000, 0x5000, fun w => .seReg (xField w) (yField w)⟩,
   ⟨"LD_Vx__byte", 0xF000, 0x6000, fun w => .ldImm (xField w) (nnField w)⟩,
   ⟨"ADD_Vx__byte", 0xF000, 0x7000, fun w => .addImm (xField w) (nnField w)⟩]

/-- The rows of group 8. -/
def opcodeMapAlu : List OpcodeRow :=
  [⟨"LD_Vx__Vy", 0xF00F, 0x8000, fun w => .ldReg (xField w) (yField w)⟩,
   ⟨"OR_Vx__Vy", 0xF00F, 0x8001, fun w => .orReg (xField w) (yField w)⟩,
   ⟨"AND_Vx__Vy", 0xF00F, 0x8002, fun w => .andReg (xField w) (yField w)⟩,
   ⟨"XOR_Vx__Vy", 0xF00F, 0x8003, fun w => .xorReg (xField w) (yField w)⟩,
   ⟨"ADD_Vx__Vy", 0xF00F, 0x8004, fun w => .addReg (xField w) (yField w)⟩,
   ⟨"SUB_Vx__Vy", 0xF00F, 0x8005, fun w => .sub (xField w) (yField w)⟩,
   ⟨"SHR_Vx", 0xF00F, 0x8006, fun w => .shr (xField w) (yField w)⟩,
   ⟨"SUBN_Vx__Vy", 0xF00F, 0x8007, fun w => .subn (xField w) (yField w)⟩,
   ⟨"SHL_Vx", 0xF00F, 0x800E, fun w => .shl (xField w) (yField w)⟩]

/-- The rows with bits [15:12] from 0x9 to 0xE. -/
def opcodeMapHigh : List OpcodeRow :=
  [⟨"SNE_Vx__Vy", 0xF000, 0x9000, fun w => .sneReg (xField w) (yField w)⟩,
   ⟨"LD_I__addr", 0xF000, 0xA000, fun w => .ldI (nnnField w)⟩,
   ⟨"JP_V0__addr", 0xF000, 0xB000, fun w => .jpV0 (nnnField w)⟩,
   ⟨"RND_Vx__byte", 0xF000, 0xC000, fun w => .rnd (xField w) (nnField w)⟩,
   ⟨"DRW_Vx__Vy__nibble", 0xF000, 0xD000, fun w => .drw (xField w) (yField w) (nField w).toNat⟩,
   ⟨"SKP_Vx", 0xF00F, 0xE00E, fun w => .skp (xField w)⟩,
   ⟨"SKNP_Vx", 0xF00F, 0xE001, fun w => .sknp (xField w)⟩]

/-- The rows of group F. -/
def opcodeMapF : List OpcodeRow :=
  [⟨"LD_Vx__DT", 0xF0FF, 0xF007, fun w => .ldVxDt (xField w)⟩,
   ⟨"LD_Vx__K", 0xF0FF, 0xF00A, fun w => .ldVxK (xField w)⟩,
   ⟨"LD_DT__Vx", 0xF0FF, 0xF015, fun w => .ldDtVx (xField w)⟩,
   ⟨"LD_ST__Vx", 0xF0FF, 0xF018, fun w => .ldStVx (xField w)⟩,
   ⟨"ADD_I__Vx", 0xF0FF, 0xF01E, fun w => .addI (xField w)⟩,
   ⟨"LD_F__Vx", 0xF0FF, 0xF029, fun w => .ldF (xField w)⟩,
   ⟨"LD_B__Vx", 0xF0FF, 0xF033, fun w => .ldB (xField w)⟩,
   ⟨"LD__I___Vx", 0xF0FF, 0xF055, fun w => .storeRegs (xField w)⟩,
   ⟨"LD_Vx___I", 0xF0FF, 0xF065, fun w => .loadRegs (xField w)⟩]

/-- The opcode map, 34 rows in the order of 30_encoding R86. -/
def opcodeMap : List OpcodeRow := opcodeMapLow ++ opcodeMapAlu ++ opcodeMapHigh ++ opcodeMapF

/-! ### The encoder (30_encoding R71, R86, R91) -/

/-- A word with an address operand, format A of 30_encoding R73. -/
def wordA (op : Nat) (nnn : BitVec 12) : Word := BitVec.ofNat 16 (op * 4096 + nnn.toNat)

/-- A word with a register and a byte, format XNN. -/
def wordXNN (op : Nat) (x : Reg) (nn : Byte) : Word := BitVec.ofNat 16 (op * 4096 + x.val * 256 + nn.toNat)

/-- A word with two registers and a last nibble, formats XY and XYN. -/
def wordXYN (op : Nat) (x y : Reg) (n : Nat) : Word :=
  BitVec.ofNat 16 (op * 4096 + x.val * 256 + y.val * 16 + n % 16)

/-- The word of an instruction, the canonical one where several words spell it (30_encoding R91). -/
def encode : Instr → Word
  | .cls => 0x00E0
  | .ret => 0x00EE
  | .jp nnn => wordA 0x1 nnn
  | .call nnn => wordA 0x2 nnn
  | .seImm x nn => wordXNN 0x3 x nn
  | .sneImm x nn => wordXNN 0x4 x nn
  | .seReg x y => wordXYN 0x5 x y 0x0
  | .ldImm x nn => wordXNN 0x6 x nn
  | .addImm x nn => wordXNN 0x7 x nn
  | .ldReg x y => wordXYN 0x8 x y 0x0
  | .orReg x y => wordXYN 0x8 x y 0x1
  | .andReg x y => wordXYN 0x8 x y 0x2
  | .xorReg x y => wordXYN 0x8 x y 0x3
  | .addReg x y => wordXYN 0x8 x y 0x4
  | .sub x y => wordXYN 0x8 x y 0x5
  | .shr x y => wordXYN 0x8 x y 0x6
  | .subn x y => wordXYN 0x8 x y 0x7
  | .shl x y => wordXYN 0x8 x y 0xE
  | .sneReg x y => wordXYN 0x9 x y 0x0
  | .ldI nnn => wordA 0xA nnn
  | .jpV0 nnn => wordA 0xB nnn
  | .rnd x nn => wordXNN 0xC x nn
  | .drw x y n => wordXYN 0xD x y n
  | .skp x => wordXNN 0xE x 0x9E
  | .sknp x => wordXNN 0xE x 0xA1
  | .ldVxDt x => wordXNN 0xF x 0x07
  | .ldVxK x => wordXNN 0xF x 0x0A
  | .ldDtVx x => wordXNN 0xF x 0x15
  | .ldStVx x => wordXNN 0xF x 0x18
  | .addI x => wordXNN 0xF x 0x1E
  | .ldF x => wordXNN 0xF x 0x29
  | .ldB x => wordXNN 0xF x 0x33
  | .storeRegs x => wordXNN 0xF x 0x55
  | .loadRegs x => wordXNN 0xF x 0x65

/-- The bytes of an instruction in memory order (20_memory R56). -/
def encodeBytes (i : Instr) : List Byte := [hiByte (encode i), loByte (encode i)]

/-! ### Assembler spelling (30_encoding R91, decision D3, log entry 5) -/

/-- A hexadecimal digit, in upper case. -/
def hexDigit (n : Nat) : String :=
  ["0", "1", "2", "3", "4", "5", "6", "7", "8", "9", "A", "B", "C", "D", "E", "F"].getD (n % 16) "0"

/-- `k` hexadecimal digits of n. -/
def hexDigits : Nat → Nat → String
  | 0, _ => ""
  | k + 1, n => hexDigits k (n / 16) ++ hexDigit n

/-- A number of `k` digits with its prefix. -/
def hexNumber (k n : Nat) : String := "0x" ++ hexDigits k n

/-- `V0` to `VF`. -/
def regName (x : Reg) : String := "V" ++ hexDigit x.val

/-- A mnemonic with two operands, the destination first. -/
def spellTwo (op a b : String) : String := op ++ " " ++ a ++ ", " ++ b

/-- A shift names Y only where Y is not 0. -/
def spellShift (op : String) (x y : Reg) : String :=
  if y = 0 then op ++ " " ++ regName x else spellTwo op (regName x) (regName y)

/-- The instruction as an assembler spells it. -/
def Instr.spelling : Instr → String
  | .cls => "CLS"
  | .ret => "RET"
  | .jp nnn => "JP " ++ hexNumber 3 nnn.toNat
  | .call nnn => "CALL " ++ hexNumber 3 nnn.toNat
  | .seImm x nn => spellTwo "SE" (regName x) (hexNumber 2 nn.toNat)
  | .sneImm x nn => spellTwo "SNE" (regName x) (hexNumber 2 nn.toNat)
  | .seReg x y => spellTwo "SE" (regName x) (regName y)
  | .ldImm x nn => spellTwo "LD" (regName x) (hexNumber 2 nn.toNat)
  | .addImm x nn => spellTwo "ADD" (regName x) (hexNumber 2 nn.toNat)
  | .ldReg x y => spellTwo "LD" (regName x) (regName y)
  | .orReg x y => spellTwo "OR" (regName x) (regName y)
  | .andReg x y => spellTwo "AND" (regName x) (regName y)
  | .xorReg x y => spellTwo "XOR" (regName x) (regName y)
  | .addReg x y => spellTwo "ADD" (regName x) (regName y)
  | .sub x y => spellTwo "SUB" (regName x) (regName y)
  | .shr x y => spellShift "SHR" x y
  | .subn x y => spellTwo "SUBN" (regName x) (regName y)
  | .shl x y => spellShift "SHL" x y
  | .sneReg x y => spellTwo "SNE" (regName x) (regName y)
  | .ldI nnn => spellTwo "LD" "I" (hexNumber 3 nnn.toNat)
  | .jpV0 nnn => spellTwo "JP" "V0" (hexNumber 3 nnn.toNat)
  | .rnd x nn => spellTwo "RND" (regName x) (hexNumber 2 nn.toNat)
  | .drw x y n => spellTwo "DRW" (regName x) (regName y) ++ ", " ++ hexNumber 1 n
  | .skp x => "SKP " ++ regName x
  | .sknp x => "SKNP " ++ regName x
  | .ldVxDt x => spellTwo "LD" (regName x) "DT"
  | .ldVxK x => spellTwo "LD" (regName x) "K"
  | .ldDtVx x => spellTwo "LD" "DT" (regName x)
  | .ldStVx x => spellTwo "LD" "ST" (regName x)
  | .addI x => spellTwo "ADD" "I" (regName x)
  | .ldF x => spellTwo "LD" "F" (regName x)
  | .ldB x => spellTwo "LD" "B" (regName x)
  | .storeRegs x => spellTwo "LD" "[I]" (regName x)
  | .loadRegs x => spellTwo "LD" (regName x) "[I]"

/-! ### The opcode table's words -/

/-- The instruction word whose bits, numbered as spec/opcode_table.json numbers them, are the low `nbits` bits of `w`;
the bits above are 0. -/
def tableWord (nbits w : Nat) : Word := BitVec.ofNat 16 (w % 2 ^ nbits)

/-- What the decoder reads from that word laid out in memory order. -/
def decodeTableWord (nbits w : Nat) : Option Instr :=
  match decode [hiByte (tableWord nbits w), loByte (tableWord nbits w)] with
  | .ok (i, _) => some i
  | .error _ => none

end Sys2Proof
end

