-- ==== Sys2Proof/Machine/Fetch.lean ====
section
/-! DEFINITION. The fetch half of a step: 40_fetch R100 to R102. -/

namespace Sys2Proof.Machine

/-- `Fetch(a)`: the two bytes at a and a + 1, each address modulo 4096, big-endian (40_fetch R100; 20_memory R56). -/
def fetchWord (s : State) (a : Nat) : Word := wordOfBytes (memRead s a) (memRead s (a + 1))

/-- What a fetch gives: an instruction and the state it runs in, or a stop. -/
inductive Fetched where
  | instr (i : Instr) (s : State)
  | stop (f : Fault)
  deriving DecidableEq, Repr

/-- Fetch, advance `pc`, decode (40_fetch R104): the instruction and the state with `pc` advanced, or InvalidOpcode
with the address and the word (R102). A state with the fault mark has no step (60_exceptions R232). -/
def fetch (s : State) : Fetched :=
  match s.fault with
  | some e => .stop (.noStepAfterFault e.addr e.word)
  | none =>
    match decodeWord (fetchWord s s.pc.toNat) with
    | .ok i => .instr i (advancePc s)
    | .error _ => .stop (.invalidOpcode s.pc (fetchWord s s.pc.toNat))

/-- The state with a word stored where the next fetch reads it and no fault mark, so that the next step runs it. -/
def placeWord (w : Word) (s : State) : State :=
  { memWrite (s.pc.toNat + 1) (loByte w) (memWrite s.pc.toNat (hiByte w) s) with fault := none }

end Sys2Proof.Machine
end

