-- ==== Sys2Proof/Machine/Step.lean ====
section
/-! DEFINITION. One step: 40_fetch R104. It only joins `fetch` (Machine/Fetch.lean) and `exec` (Machine/Dispatch.lean). -/

namespace Sys2Proof.Machine

/-- `Step` (40_fetch R104). The random source, its second argument there, is held in the
state (60_exceptions R245). -/
def step (s : State) : Host.Outcome State Fault Refusal :=
  match fetch s with
  | .instr i t => exec i t
  | .stop f => .fault f

/-- s with the instruction word of the low `nbits` bits of `w` placed where the next step fetches it. It stands for the
load of a program from outside the machine (log entry 8). -/
def State.withFetchWord (s : State) (nbits w : Nat) : State := placeWord (tableWord nbits w) s

end Sys2Proof.Machine
end

