-- ==== Sys2Proof/Machine/Cycle.lean ====
section
/-! DEFINITION. The Cycle Runner and the host's side of the interface: 40_fetch R108 to R112; 60_exceptions R240,
R245; 70_reset R260 to R264. `Host.Core.step` is one step; a host call is `runCycle` (log entry 9). -/

namespace Sys2Proof.Machine

/-- One timer's decay: down by 1, never below 0 (60_exceptions R240). -/
def decayed (t : Byte) : Byte := BitVec.ofNat 8 (t.toNat - 1)

/-- `DecayTimers` (60_exceptions R240). -/
def decayTimers (s : State) : State := setSound (decayed s.soundTimer) (setDelay (decayed s.delayTimer) s)

/-- How a call ends, with the state that the host then holds. -/
inductive CallResult where
  /-- all n steps ran -/
  | ok (s : State)
  /-- a step stopped; s is the state left behind (60_exceptions R233) -/
  | error (f : Fault) (s : State)
  /-- a step was refused: no instruction of this model answers so -/
  | refused (r : Refusal)
  deriving DecidableEq, Repr

/-- The number of an error as the core reports it: the spec numbers InvalidOpcode 0 (60_exceptions R230, decision D12).
A step refused for the fault mark is the model's own stop and has no number. -/
def errorCode : Fault → Option Nat
  | .invalidOpcode _ _ => some 0
  | .noStepAfterFault _ _ => none

/-- The sound cue: after a call the host should be emitting a tone exactly while ST is not 0 (60_exceptions R246). -/
def soundCue (s : State) : Bool := s.soundTimer != 0

/-- The batch of a call: n steps in sequence, ended by the first that stops (40_fetch R108; 60_exceptions R234). -/
def runBatch : Nat → State → CallResult
  | 0, s => .ok s
  | n + 1, s =>
    match step s with
    | .next t => runBatch n t
    | .fault f => .error f (leftBehind f s)
    | .refused r => .refused r

/-- `RunCycle(s, n, rand)` (40_fetch R108), `rand` being the source that s holds: the batch, then one decay of both
timers unless the batch stopped. -/
def runCycle (n : Nat) (s : State) : CallResult :=
  match runBatch n s with
  | .ok t => .ok (decayTimers t)
  | .error f t => .error f t
  | .refused r => .refused r

/-- The host's write of the 16 keys before a call (60_exceptions R243). -/
def setKeypad (keys : Vector Bool 16) (s : State) : State := { s with keypad := keys }

/-- The host's supply of the random source before a call (40_fetch R113): a source of its own, or the one that the state
holds (60_exceptions R245). -/
def setSource (r : Option RandomSource) (s : State) : State := { s with source := r.getD s.source }

/-- One call as the host makes it: the keys it writes before, the random source if it supplies one, and n
(60_exceptions R245). -/
structure HostCall where
  keys : Vector Bool 16
  source : Option RandomSource
  count : Nat
  deriving DecidableEq, Repr

/-- All that the host writes before a call: the keys and the random source (60_exceptions R245; log entry 10). -/
def beginCall (c : HostCall) (s : State) : State := setSource c.source (setKeypad c.keys s)

/-- A run: a finite sequence of calls with their inputs, ended by the first call that does not end well (40_fetch R114;
92_eei_decisions D23). -/
def runCalls : List HostCall → State → CallResult
  | [], s => .ok s
  | c :: cs, s =>
    match runCycle c.count (beginCall c s) with
    | .ok t => runCalls cs t
    | .error f t => .error f t
    | .refused r => .refused r

/-- The Initializer's result for a font table and a ROM image (70_reset R260, R262), with the random source that the host
supplies (40_fetch R113): a state built afresh (R264), with the font at FONT_BASE and the ROM at 0x200; a ROM of more
than 3584 bytes does not fit below 0x1000 and is refused. -/
def initialise (glyphs : Vector Byte 80) (rom : List Byte) (source : RandomSource) :
    Host.Outcome State Fault Refusal :=
  if rom.length ≤ 3584 then
    .next (storeBytes 0x200 rom (storeBytes fontBase glyphs.toList { State.reset with source := source }))
  else .refused (.romTooLong rom.length)

end Sys2Proof.Machine
end

