-- ==== Sys2Proof/Safety.lean ====
section
/-! DEFINITION. The terms that claims use: the legal values of the state (10_state R37), what an instruction may write
(40_fetch R106), and the states a run is said to end in (92_eei_decisions D23). -/

namespace Sys2Proof.Machine

/-- Every field that has a range holds a value of it (10_state R24, R27, R28, R30, R37) and memory is in canonical
form. -/
structure State.Legal (s : State) : Prop where
  pc_lt : s.pc.toNat < 4096
  index_lt : s.index.toNat < 4096
  sp_lt : s.sp.toNat < 16
  slot_lt : ∀ k : Fin 16, (readSlot s k).toNat < 4096
  mem_wf : s.mem.wf = true

/-- One piece of the state. -/
inductive Item where
  | reg (x : Reg)
  | pc
  | index
  | sp
  | slot (k : Fin 16)
  | delayTimer
  | soundTimer
  | byte (a : Nat)
  | row (r : Fin 32)
  | key (k : Key)
  | fault
  | source
  deriving DecidableEq, Repr

/-- The piece holds the same in t as in s. -/
def Item.Same (s t : State) : Item → Prop
  | .reg x => readReg t x = readReg s x
  | .pc => t.pc = s.pc
  | .index => t.index = s.index
  | .sp => t.sp = s.sp
  | .slot k => readSlot t k = readSlot s k
  | .delayTimer => t.delayTimer = s.delayTimer
  | .soundTimer => t.soundTimer = s.soundTimer
  | .byte a => memRead t a = memRead s a
  | .row r => t.video[r.val] = s.video[r.val]
  | .key k => keyDown t k = keyDown s k
  | .fault => t.fault = s.fault
  | .source => t.source = s.source

/-- Every piece that `written` does not name holds the same in t as in s: a frame. -/
def SameOutside (written : Item → Prop) (s t : State) : Prop := ∀ it, ¬ written it → it.Same s t

/-- Address a is one of the n bytes from I on, each address modulo 4096 (43_index_memory R175). -/
def InRange (s : State) (n a : Nat) : Prop := ∃ k < n, a % 4096 = indexed s k % 4096

/-- Row r is one of the n rows from the anchor of `DRW Vx, Vy, n` on, modulo 32 (44_display R193). -/
def InSprite (s : State) (y : Reg) (n : Nat) (r : Fin 32) : Prop := ∃ i < n, r = targetRow (anchorRow s y) i

/-- The pieces of state that an instruction's own rule names as written (40_fetch R106), in the state it runs in. -/
def Writes (s : State) : Instr → Item → Prop
  | .cls, it => ∃ r, it = .row r
  | .ret, it => it = .pc ∨ it = .sp
  | .jp _, it | .jpV0 _, it => it = .pc
  | .call _, it => it = .pc ∨ it = .sp ∨ it = .slot (slotOf s.sp)
  | .seImm _ _, it | .sneImm _ _, it | .seReg _ _, it | .sneReg _ _, it | .skp _, it | .sknp _, it => it = .pc
  | .ldImm x _, it | .addImm x _, it | .ldReg x _, it | .orReg x _, it | .andReg x _, it | .xorReg x _, it
  | .ldVxDt x, it => it = .reg x
  | .addReg x _, it | .sub x _, it | .shr x _, it | .subn x _, it | .shl x _, it => it = .reg x ∨ it = .reg VF
  | .ldI _, it | .addI _, it | .ldF _, it => it = .index
  | .rnd x _, it => it = .reg x ∨ it = .source
  | .drw _ y n, it => it = .reg VF ∨ ∃ r, it = .row r ∧ InSprite s y n r
  | .ldVxK x, it => it = .reg x ∨ it = .pc
  | .ldDtVx _, it => it = .delayTimer
  | .ldStVx _, it => it = .soundTimer
  | .ldB _, it => ∃ a, it = .byte a ∧ InRange s 3 a
  | .storeRegs x, it => ∃ a, it = .byte a ∧ InRange s (x.val + 1) a
  | .loadRegs x, it => ∃ y, it = .reg y ∧ y ≤ x

/-- Vx holds a result and VF a flag after a flag-writing instruction; where Vx is VF itself, the parameter
VF_WRITE_ORDER says which of the two it holds (42_alu R141). -/
def ResultAndFlag (x : Reg) (r f : Byte) (t : State) : Prop :=
  if x = VF then
    readReg t VF = (match Config.vfWriteOrder with
      | .flagLast => f
      | .resultLast => r)
  else readReg t x = r ∧ readReg t VF = f

/-- i writes VF as a flag: the six instructions of 10_state R22. -/
def WritesFlag : Instr → Prop
  | .addReg _ _ | .sub _ _ | .shr _ _ | .subn _ _ | .shl _ _ | .drw _ _ _ => True
  | .cls | .ret | .jp _ | .call _ | .seImm _ _ | .sneImm _ _ | .seReg _ _ | .ldImm _ _ | .addImm _ _
  | .ldReg _ _ | .orReg _ _ | .andReg _ _ | .xorReg _ _ | .sneReg _ _ | .ldI _ | .jpV0 _ | .rnd _ _ | .skp _
  | .sknp _ | .ldVxDt _ | .ldVxK _ | .ldDtVx _ | .ldStVx _ | .addI _ | .ldF _ | .ldB _ | .storeRegs _
  | .loadRegs _ => False

/-- VF is a named destination of i: its field X is 15 and it loads or computes Vx (10_state R22). -/
def NamesVF : Instr → Prop
  | .ldImm x _ | .addImm x _ | .ldReg x _ | .orReg x _ | .andReg x _ | .xorReg x _ | .addReg x _ | .sub x _
  | .shr x _ | .subn x _ | .shl x _ | .rnd x _ | .ldVxDt x | .ldVxK x | .loadRegs x => x = VF
  | .cls | .ret | .jp _ | .call _ | .seImm _ _ | .sneImm _ _ | .seReg _ _ | .sneReg _ _ | .ldI _ | .jpV0 _
  | .drw _ _ _ | .skp _ | .sknp _ | .ldDtVx _ | .ldStVx _ | .addI _ | .ldF _ | .ldB _ | .storeRegs _ => False

/-- The word at `pc` jumps to `pc`: a parked program, the usual end of a run (92_eei_decisions D23). -/
def State.Parked (s : State) : Prop :=
  s.fault = none ∧ ∃ nnn : BitVec 12, decodeWord (fetchWord s s.pc.toNat) = .ok (.jp nnn) ∧ nnn.toNat = s.pc.toNat

/-- The state carries the fault mark, and no run ends well in it (60_exceptions R232). -/
def State.Faulted (s : State) : Prop := s.fault.isSome = true

end Sys2Proof.Machine
end

