-- ==== Sys2Proof/Certificates/Slice0/Obligations.lean ====
section
/-! DEFINITION. The statements for the provers, in the order of OBLIGATIONS.json. A statement about an instruction is
about `exec`, so `pc` is the address after the instruction (40_fetch R101). Frames are said with `SameOutside`
(Sys2Proof/Safety.lean): every piece of state that the given predicate does not name is as before, every byte of memory
among them. Where a rule rests on one of the spec's own decisions D<n>, the docstring names it. -/

open Sys2Proof Sys2Proof.Machine

/-! ### Encoding and decoding -/

/-- Decoding what the encoder writes gives the instruction back, as a word and at the head of any bytes. The opcode
numbers are decisions D1 and D2 (log entry 5), the canonical words those of 30_encoding section 6. -/
def Obligations.DecodeOfEncodeGivesTheInstruction : Prop :=
  ∀ i : Instr, i.wf = true →
    decodeWord (encode i) = .ok i ∧ ∀ rest : List Byte, decode (encodeBytes i ++ rest) = .ok (i, rest)

/-- The two-level dispatch and the opcode map say the same: a word decodes to an instruction exactly if it matches a
row of the map, and no word matches two rows (30_encoding sections 2 to 4; decisions D1, D2, D11, D22). -/
def Obligations.DecoderAgreesWithOpcodeMap : Prop :=
  opcodeMap.length = 34 ∧
  (∀ (w : Word) (i : Instr),
    decodeWord w = .ok i ↔ ∃ row ∈ opcodeMap, w &&& row.mask = row.pattern ∧ row.build w = i) ∧
  opcodeMap.Pairwise fun p q => ∀ w : Word, ¬ (w &&& p.mask = p.pattern ∧ w &&& q.mask = q.pattern)

/-- The illegal words are those of the table in 30_encoding section 5 (decisions D1, D11, D22). -/
def Obligations.IllegalWordsAreThoseListed : Prop :=
  ∀ w : Word, (∃ r, decodeWord w = .error r) ↔
    (opField w = 0x0 ∧ nField w ∉ [0x0, 0xE]) ∨
    (opField w = 0x8 ∧ nField w ∈ [0x8, 0x9, 0xA, 0xB, 0xC, 0xD, 0xF]) ∨
    (opField w = 0xE ∧ nField w ∉ [0x1, 0xE]) ∨
    (opField w = 0xF ∧ nnField w ∉ [0x07, 0x0A, 0x15, 0x18, 0x1E, 0x29, 0x33, 0x55, 0x65])

/-- R84: the word alone selects one instruction, or InvalidOpcode, for every word and in every state. -/
def Obligations.RoutingReadsOnlyTheWord : Prop :=
  ∀ w : Word,
    (∃ i : Instr, i.wf = true ∧ decodeWord w = .ok i ∧
      ∀ s : State, s.fault = none → fetchWord s s.pc.toNat = w → step s = exec i (advancePc s)) ∨
    (∃ r : Reject, decodeWord w = .error r ∧
      ∀ s : State, s.fault = none → fetchWord s s.pc.toNat = w → step s = .fault (.invalidOpcode s.pc w))

/-- Words written out from 30_encoding (sections 2, 4 and 6) decode to the instructions they stand for; decisions D1 and
D2 (log entry 5), and for the bits that are not read and the low byte 0x66 decisions D22 and D11 (log entry 17). -/
def Obligations.SpecWordsDecode : Prop :=
  decodeWord 0x00E0 = .ok .cls ∧ decodeWord 0x0120 = .ok .cls ∧ decodeWord 0x0FFE = .ok .ret ∧
  decodeWord 0x512F = .ok (.seReg 1 2) ∧ decodeWord 0x84F6 = .ok (.shr 4 15) ∧
  decodeWord 0xD012 = .ok (.drw 0 1 2) ∧ decodeWord 0xE2A1 = .ok (.sknp 2) ∧
  decodeWord 0xF255 = .ok (.storeRegs 2) ∧ decodeWord 0x8008 = .error (.group8Slot 8) ∧
  decodeWord 0xF066 = .error (.groupFNoSlot 0x66)

/-! ### Memory and the step -/

/-- R52: memory is addressed modulo 4096 by reads, writes, runs of bytes and fetches; a run reduces each of its
addresses on its own, so that it goes on at 0 after 4095; and no address raises an error, since no instruction fails. -/
def Obligations.AddressesWrapModulo4096 : Prop :=
  (∀ (s : State) (a b : Nat), a % 4096 = b % 4096 →
    memRead s a = memRead s b ∧ (∀ v : Byte, memWrite a v s = memWrite b v s) ∧
    (∀ bs : List Byte, storeBytes a bs s = storeBytes b bs s) ∧ fetchWord s a = fetchWord s b) ∧
  (∀ (s : State) (a : Nat) (v : Byte) (bs : List Byte),
    storeBytes a (v :: bs) s = storeBytes ((a + 1) % 4096) bs (memWrite (a % 4096) v s)) ∧
  ∀ (i : Instr) (s : State), ∃ t, exec i s = .next t

/-- In memory in canonical form, a byte written reads back and every other byte is as before (20_memory section 3). -/
def Obligations.ReadAfterWrite : Prop :=
  ∀ (s : State) (a : Nat) (v : Byte), s.mem.wf = true →
    (memWrite a v s).mem.wf = true ∧
    ∀ c : Nat, memRead (memWrite a v s) c = if c % 4096 = a % 4096 then v else memRead s c

/-- R100: the fetched word is the byte at `pc` times 256 plus the byte at `pc + 1`, each address modulo 4096, whatever
`pc` is. -/
def Obligations.FetchReadsTwoBytesBigEndian : Prop :=
  ∀ (s : State) (a : Nat),
    (fetchWord s a).toNat = (memRead s (a % 4096)).toNat * 256 + (memRead s ((a + 1) % 4096)).toNat

/-- When the bytes at `pc` decode to i, a step is i run on the state in which `pc` is advanced by 2 modulo 4096 and
nothing else is changed (40_fetch sections 1 to 3). -/
def Obligations.StepRunsTheDecodedInstruction : Prop :=
  ∀ (s : State) (i : Instr), s.fault = none → decodeWord (fetchWord s s.pc.toNat) = .ok i →
    step s = exec i (advancePc s) ∧ (advancePc s).pc.toNat = (s.pc.toNat + 2) % 4096 ∧
    SameOutside (fun it => it = .pc) s (advancePc s)

/-- A step that fetches an illegal word raises InvalidOpcode with the address and the word (60_exceptions section 1).
A state that carries the fault mark has no next state (section 2, decision D12, log entry 6). -/
def Obligations.IllegalWordsAndFaultedStatesStop : Prop :=
  (∀ (s : State) (r : Reject), s.fault = none → decodeWord (fetchWord s s.pc.toNat) = .error r →
    step s = .fault (.invalidOpcode s.pc (fetchWord s s.pc.toNat))) ∧
  (∀ (s : State) (e : InvalidOpcode), s.fault = some e → step s = .fault (.noStepAfterFault e.addr e.word))

/-- R105: a step answers the next state or InvalidOpcode with the address and the word; no instruction fails; `LD Vx, K`
with no key pressed completes by rewinding `pc`. -/
def Obligations.StepHasTwoOutcomesAndNoInstructionFails : Prop :=
  (∀ s : State, s.fault = none →
    (∃ t, step s = .next t) ∨ step s = .fault (.invalidOpcode s.pc (fetchWord s s.pc.toNat))) ∧
  (∀ (i : Instr) (s : State), ∃ t, exec i s = .next t) ∧
  (∀ (x : Reg) (s : State), (∀ k : Key, keyDown s k = false) →
    ∃ t, exec (.ldVxK x) s = .next t ∧ t.pc.toNat = (s.pc.toNat + 4096 - 2) % 4096)

/-- An instruction changes only the pieces of state that its own rule names (40_fetch section 3). That `LD B`, `LD [I]` and
`LD Vx, [I]` leave I is decision D8 (log entry 13). That the rows of `DRW` are counted from Vy as it is before VF is written,
also for y = 15, is decision D5 (log entry 14). The random source that `RND` changes is log entry 4. -/
def Obligations.InstructionsWriteOnlyWhatTheirRuleNames : Prop :=
  ∀ (i : Instr) (s t : State), exec i s = .next t → SameOutside (Writes s i) s t

/-! ### Invariants and whole-machine rules -/

/-- The state after reset has legal values, and so has every state that the Initializer answers, whatever the font, the
ROM and the random source are: the base case of `StepKeepsLegal` and `RunCycleKeepsLegal` for a loaded program. -/
def Obligations.ResetIsLegal : Prop :=
  State.reset.Legal ∧
  ∀ (glyphs : Vector Byte 80) (rom : List Byte) (r : RandomSource) (t : State),
    initialise glyphs rom r = .next t → t.Legal

/-- Every step from a state with legal values gives a state with legal values: `pc` and I below 4096, `sp` below 16,
every slot below 4096, memory in canonical form (10_state sections 3 to 5 and 11). -/
def Obligations.StepKeepsLegal : Prop :=
  ∀ s t : State, s.Legal → step s = .next t → t.Legal

/-- So does every call, whether it ends well or in InvalidOpcode. -/
def Obligations.RunCycleKeepsLegal : Prop :=
  ∀ (n : Nat) (s : State), s.Legal →
    (∀ t, runCycle n s = .ok t → t.Legal) ∧ ∀ f t, runCycle n s = .error f t → t.Legal

/-- Only `CLS` and `DRW` change the framebuffer (10_state section 8). -/
def Obligations.OnlyDisplayInstructionsChangeVideo : Prop :=
  ∀ (i : Instr) (s t : State), exec i s = .next t → t.video ≠ s.video → i = .cls ∨ ∃ x y n, i = .drw x y n

/-- Only `LD B, Vx` and `LD [I], Vx` change memory (20_memory section 3). -/
def Obligations.OnlyStoresChangeMemory : Prop :=
  ∀ (i : Instr) (s t : State), exec i s = .next t → t.mem ≠ s.mem → ∃ x, i = .ldB x ∨ i = .storeRegs x

/-- VF changes only in the six flag-writing instructions or where VF is the named destination (10_state section 2), and
each of the six leaves a flag, 0 or 1, in VF, but for the result that X = 15 leaves there under `result_last` (42_alu
section 1, the open point D6, log entry 3). -/
def Obligations.FlagRegisterHasItsWriters : Prop :=
  (∀ (i : Instr) (s t : State), exec i s = .next t → readReg t VF ≠ readReg s VF → WritesFlag i ∨ NamesVF i) ∧
  (∀ (i : Instr) (s : State), WritesFlag i → ∃ t, exec i s = .next t ∧
    (readReg t VF = 0 ∨ readReg t VF = 1 ∨ (NamesVF i ∧ Config.vfWriteOrder = .resultLast)))

/-- Within a call DT and ST change only by `LD DT, Vx` and `LD ST, Vx` (40_fetch section 4, 10_state section 6). -/
def Obligations.TimersChangeOnlyByTheirLoads : Prop :=
  ∀ (i : Instr) (s t : State), exec i s = .next t →
    (t.delayTimer ≠ s.delayTimer → ∃ x, i = .ldDtVx x) ∧ (t.soundTimer ≠ s.soundTimer → ∃ x, i = .ldStVx x)

/-! ### Reset and loading -/

/-- R260: the initial state for a font table and a ROM: every item of the table. -/
def Obligations.InitialStateHoldsFontAndRom : Prop :=
  ∀ (glyphs : Vector Byte 80) (rom : List Byte) (source : RandomSource), rom.length ≤ 3584 →
    ∃ t, initialise glyphs rom source = .next t ∧
    (∀ x : Reg, readReg t x = 0) ∧ t.pc = 0x200 ∧ t.index = 0 ∧ t.sp = 0 ∧ (∀ k : Fin 16, readSlot t k = 0) ∧
    t.delayTimer = 0 ∧ t.soundTimer = 0 ∧ (∀ r : Fin 32, t.video[r.val] = 0) ∧ (∀ k : Key, keyDown t k = false) ∧
    t.fault = none ∧
    (∀ (i : Nat) (h : i < 80), memRead t (fontBase + i) = glyphs[i]) ∧
    (∀ (j : Nat) (h : j < rom.length), memRead t (0x200 + j) = rom[j]) ∧
    (∀ a < 4096, ¬ (fontBase ≤ a ∧ a < fontBase + 80) → ¬ (0x200 ≤ a ∧ a < 0x200 + rom.length) → memRead t a = 0)

/-- State.reset is the initial state for the machine's own font, no ROM bytes and the source that it holds (70_reset
section 1; log entries 2, 4, 7 and 8). -/
def Obligations.ResetIsTheInitialStateWithoutRom : Prop :=
  initialise Config.fontGlyphs [] State.reset.source = .next State.reset

/-- A ROM of more than 3584 bytes is refused (70_reset section 1, decision D19). -/
def Obligations.OverlongRomIsRefused : Prop :=
  ∀ (glyphs : Vector Byte 80) (rom : List Byte) (source : RandomSource), 3584 < rom.length →
    initialise glyphs rom source = .refused (.romTooLong rom.length)

/-! ### Control flow (41_control_flow) -/

/-- `RET`: `sp` goes down by 1 modulo 16 and `pc` is the slot it then names, modulo 4096 (decision D21). -/
def Obligations.RetPopsTheStack : Prop :=
  ∀ s : State, ∃ t, exec .ret s = .next t ∧ t.sp.toNat = (s.sp.toNat + 15) % 16 ∧
    (∀ k : Fin 16, k.val = (s.sp.toNat + 15) % 16 → t.pc.toNat = (readSlot s k).toNat % 4096) ∧
    SameOutside (fun it => it = .pc ∨ it = .sp) s t

/-- `JP addr` and `JP V0, addr`: all 12 bits of the address, and V0 added modulo 4096 whatever X is. -/
def Obligations.JumpsSetPc : Prop :=
  ∀ (nnn : BitVec 12) (s : State),
    (∃ t, exec (.jp nnn) s = .next t ∧ t.pc.toNat = nnn.toNat ∧ SameOutside (fun it => it = .pc) s t) ∧
    (∃ t, exec (.jpV0 nnn) s = .next t ∧ t.pc.toNat = ((readReg s 0).toNat + nnn.toNat) % 4096 ∧
      SameOutside (fun it => it = .pc) s t)

/-- `CALL addr`: `pc`, the address after the call, goes to the slot that `sp` names modulo 16, `sp` goes up by 1 modulo
16, and no other slot changes. -/
def Obligations.CallPushesTheReturnAddress : Prop :=
  ∀ (nnn : BitVec 12) (s : State), ∃ t, exec (.call nnn) s = .next t ∧ t.pc.toNat = nnn.toNat ∧
    t.sp.toNat = (s.sp.toNat + 1) % 16 ∧ (∀ k : Fin 16, k.val = s.sp.toNat % 16 → readSlot t k = s.pc) ∧
    SameOutside (fun it => it = .pc ∨ it = .sp ∨ ∃ k : Fin 16, it = .slot k ∧ k.val = s.sp.toNat % 16) s t

/-- A `CALL` and the `RET` that its target holds restore `pc` to the address after the call and `sp` to what it was,
from every `sp` of the ring. -/
def Obligations.ReturnComesBackFromCall : Prop :=
  ∀ (nnn : BitVec 12) (s : State), ∃ t u, exec (.call nnn) s = .next t ∧ exec .ret (advancePc t) = .next u ∧
    u.pc.toNat = s.pc.toNat % 4096 ∧ u.sp.toNat = s.sp.toNat % 16 ∧
    SameOutside (fun it => it = .pc ∨ it = .sp ∨ ∃ k : Fin 16, it = .slot k ∧ k.val = s.sp.toNat % 16) s u

/-- The stack is a ring of 16: of 17 nested calls, each at the address the one before it jumped to, the last overwrites
the frame of the first and the other 15 frames stand (10_state section 5, 70_reset section 3). -/
def Obligations.SeventeenthCallOverwritesTheOldestFrame : Prop :=
  ∀ (target : Nat → BitVec 12) (s : State), ∃ f : Nat → State, f 0 = s ∧
    (∀ k, exec (.call (target k)) (advancePc (f k)) = .next (f (k + 1))) ∧
    (f 17).sp.toNat = (s.sp.toNat + 17) % 16 ∧
    ∀ k, 1 ≤ k → k ≤ 16 → ∀ j : Fin 16, j.val = (s.sp.toNat + k) % 16 → readSlot (f 17) j = (advancePc (f k)).pc

/-- `SE Vx, byte`, `SNE Vx, byte`: `pc` goes on by 2 modulo 4096 if the condition holds and stays otherwise. -/
def Obligations.SkipsOnAByte : Prop :=
  ∀ (x : Reg) (nn : Byte) (s : State),
    (∃ t, exec (.seImm x nn) s = .next t ∧ SameOutside (fun it => it = .pc) s t ∧
      if (readReg s x).toNat = nn.toNat then t.pc.toNat = (s.pc.toNat + 2) % 4096 else t.pc = s.pc) ∧
    (∃ t, exec (.sneImm x nn) s = .next t ∧ SameOutside (fun it => it = .pc) s t ∧
      if (readReg s x).toNat ≠ nn.toNat then t.pc.toNat = (s.pc.toNat + 2) % 4096 else t.pc = s.pc)

/-- `SE Vx, Vy`, `SNE Vx, Vy`, the same on two registers. -/
def Obligations.SkipsOnARegister : Prop :=
  ∀ (x y : Reg) (s : State),
    (∃ t, exec (.seReg x y) s = .next t ∧ SameOutside (fun it => it = .pc) s t ∧
      if (readReg s x).toNat = (readReg s y).toNat then t.pc.toNat = (s.pc.toNat + 2) % 4096 else t.pc = s.pc) ∧
    (∃ t, exec (.sneReg x y) s = .next t ∧ SameOutside (fun it => it = .pc) s t ∧
      if (readReg s x).toNat ≠ (readReg s y).toNat then t.pc.toNat = (s.pc.toNat + 2) % 4096 else t.pc = s.pc)

/-! ### The ALU (42_alu) -/

/-- `LD Vx, byte` and `ADD Vx, byte`: the literal, and the sum modulo 256 with no flag. -/
def Obligations.ByteLoadAndAdd : Prop :=
  ∀ (x : Reg) (nn : Byte) (s : State),
    (∃ t, exec (.ldImm x nn) s = .next t ∧ readReg t x = nn ∧ SameOutside (fun it => it = .reg x) s t) ∧
    (∃ t, exec (.addImm x nn) s = .next t ∧ (readReg t x).toNat = ((readReg s x).toNat + nn.toNat) % 256 ∧
      SameOutside (fun it => it = .reg x) s t)

/-- `LD`, `OR`, `AND`, `XOR` on two registers: the copy, and the result bit by bit; no flag, and only Vx changes. -/
def Obligations.CopyAndBitwise : Prop :=
  ∀ (x y : Reg) (s : State),
    (∃ t, exec (.ldReg x y) s = .next t ∧ readReg t x = readReg s y ∧ SameOutside (fun it => it = .reg x) s t) ∧
    (∃ t, exec (.orReg x y) s = .next t ∧
      (∀ k, (readReg t x).getLsbD k = ((readReg s x).getLsbD k || (readReg s y).getLsbD k)) ∧
      SameOutside (fun it => it = .reg x) s t) ∧
    (∃ t, exec (.andReg x y) s = .next t ∧
      (∀ k, (readReg t x).getLsbD k = ((readReg s x).getLsbD k && (readReg s y).getLsbD k)) ∧
      SameOutside (fun it => it = .reg x) s t) ∧
    (∃ t, exec (.xorReg x y) s = .next t ∧
      (∀ k, (readReg t x).getLsbD k = ((readReg s x).getLsbD k != (readReg s y).getLsbD k)) ∧
      SameOutside (fun it => it = .reg x) s t)

/-- `ADD Vx, Vy`: the sum modulo 256, and VF = 1 exactly if the sum exceeds 255. With y = 15 the VF from before the write
is added (decision D5, log entry 14); with x = 15 VF_WRITE_ORDER decides (D6, log entry 3). -/
def Obligations.AddSetsCarry : Prop :=
  ∀ (x y : Reg) (s : State), ∃ t, exec (.addReg x y) s = .next t ∧
    ResultAndFlag x (BitVec.ofNat 8 (((readReg s x).toNat + (readReg s y).toNat) % 256))
      (if 255 < (readReg s x).toNat + (readReg s y).toNat then 1 else 0) t ∧
    SameOutside (fun it => it = .reg x ∨ it = .reg VF) s t

/-- `SUB` and `SUBN`: the difference modulo 256 in Vx, and VF = 1 exactly if the minuend is strictly greater
(90_conflicts C9). With y = 15 the VF from before the write is read (decision D5, log entry 14); with x = 15
VF_WRITE_ORDER decides (D6, log entry 3). -/
def Obligations.SubtractionsSetNoBorrow : Prop :=
  ∀ (x y : Reg) (s : State),
    (∃ t, exec (.sub x y) s = .next t ∧
      ResultAndFlag x (BitVec.ofNat 8 ((256 + (readReg s x).toNat - (readReg s y).toNat) % 256))
        (if (readReg s x).toNat > (readReg s y).toNat then 1 else 0) t ∧
      SameOutside (fun it => it = .reg x ∨ it = .reg VF) s t) ∧
    (∃ t, exec (.subn x y) s = .next t ∧
      ResultAndFlag x (BitVec.ofNat 8 ((256 + (readReg s y).toNat - (readReg s x).toNat) % 256))
        (if (readReg s y).toNat > (readReg s x).toNat then 1 else 0) t ∧
      SameOutside (fun it => it = .reg x ∨ it = .reg VF) s t)

/-- `SHR` and `SHL`: Vx halved, and doubled modulo 256, with the bit moved out in VF; Y is ignored (decision D4, log
entry 11). With x = 15 VF_WRITE_ORDER decides (D6, log entry 3). -/
def Obligations.ShiftsMoveOneBitOut : Prop :=
  ∀ (x y : Reg) (s : State),
    (∃ t, exec (.shr x y) s = .next t ∧
      ResultAndFlag x (BitVec.ofNat 8 ((readReg s x).toNat / 2)) (BitVec.ofNat 8 ((readReg s x).toNat % 2)) t ∧
      SameOutside (fun it => it = .reg x ∨ it = .reg VF) s t) ∧
    (∃ t, exec (.shl x y) s = .next t ∧
      ResultAndFlag x (BitVec.ofNat 8 ((readReg s x).toNat * 2 % 256))
        (BitVec.ofNat 8 ((readReg s x).toNat / 128)) t ∧
      SameOutside (fun it => it = .reg x ∨ it = .reg VF) s t)

/-! ### Index and memory (43_index_memory) -/

/-- `LD I, addr`, `ADD I, Vx`, `LD F, Vx`: I modulo 4096, and no flag. `LD F` uses the whole register (decision D7, log
entry 12) and the machine's FONT_BASE (decision D9, log entry 1). -/
def Obligations.IndexWrites : Prop :=
  ∀ (x : Reg) (nnn : BitVec 12) (s : State),
    (∃ t, exec (.ldI nnn) s = .next t ∧ t.index.toNat = nnn.toNat ∧ SameOutside (fun it => it = .index) s t) ∧
    (∃ t, exec (.addI x) s = .next t ∧ t.index.toNat = (s.index.toNat + (readReg s x).toNat) % 4096 ∧
      SameOutside (fun it => it = .index) s t) ∧
    (∃ t, exec (.ldF x) s = .next t ∧
      t.index.toNat = (Config.fontBase.val + 5 * (readReg s x).toNat) % 4096 ∧
      SameOutside (fun it => it = .index) s t)

/-- `LD B, Vx`: the decimal digits of Vx at I, I + 1 and I + 2, each address modulo 4096; no other byte and not I
(decision D8, log entry 13) changes. -/
def Obligations.BcdStoresThreeDigits : Prop :=
  ∀ (x : Reg) (s : State), ∃ t, exec (.ldB x) s = .next t ∧
    (s.mem.wf = true → ∃ h d o : Byte,
      memRead t s.index.toNat = h ∧ memRead t (s.index.toNat + 1) = d ∧ memRead t (s.index.toNat + 2) = o ∧
      d.toNat < 10 ∧ o.toNat < 10 ∧ 100 * h.toNat + 10 * d.toNat + o.toNat = (readReg s x).toNat) ∧
    SameOutside (fun it => ∃ a, it = .byte a ∧ InRange s 3 a) s t

/-- `LD [I], Vx`: V0 to Vx inclusive at I onwards, each address modulo 4096; no other byte and not I changes. -/
def Obligations.StoreRegistersThroughVx : Prop :=
  ∀ (x : Reg) (s : State), ∃ t, exec (.storeRegs x) s = .next t ∧
    (s.mem.wf = true → ∀ k : Reg, k ≤ x → memRead t (s.index.toNat + k.val) = readReg s k) ∧
    SameOutside (fun it => ∃ a, it = .byte a ∧ InRange s (x.val + 1) a) s t

/-- `LD Vx, [I]`: V0 to Vx inclusive from I onwards; the registers above x and I stay. -/
def Obligations.LoadRegistersThroughVx : Prop :=
  ∀ (x : Reg) (s : State), ∃ t, exec (.loadRegs x) s = .next t ∧
    (∀ k : Reg, k ≤ x → readReg t k = memRead s (s.index.toNat + k.val)) ∧
    SameOutside (fun it => ∃ k : Reg, it = .reg k ∧ k ≤ x) s t

/-- A byte that `LD [I], Vx` stores is what a fetch then reads (20_memory section 6). -/
def Obligations.StoredBytesAreFetched : Prop :=
  ∀ (x k j : Reg) (s t : State), s.mem.wf = true → exec (.storeRegs x) s = .next t → j.val = k.val + 1 → j ≤ x →
    (fetchWord t (s.index.toNat + k.val)).toNat = (readReg s k).toNat * 256 + (readReg s j).toNat

/-! ### Display (44_display) -/

/-- `CLS`: every row is 0 and nothing else changes. -/
def Obligations.ClsClearsVideo : Prop :=
  ∀ s : State, ∃ t, exec .cls s = .next t ∧ (∀ r : Fin 32, t.video[r.val] = 0) ∧
    SameOutside (fun it => ∃ r, it = .row r) s t

/-- `DRW`: sprite row i is XORed into row (V[y] mod 32 + i) mod 32; VF is 1 if a pixel went from on to off and 0
if none did; nothing else changes. The anchor is V[x] and V[y] from before VF is written (decision D5, log entry 14). -/
def Obligations.DrwXorsTheSpriteAndReportsCollision : Prop :=
  ∀ (x y : Reg) (n : Nat) (s : State), n < 16 → ∃ t, exec (.drw x y n) s = .next t ∧
    (∀ i < n, ∀ r : Fin 32, r.val = ((readReg s y).toNat % 32 + i) % 32 →
      t.video[r.val] = s.video[r.val] ^^^ spriteRow (memRead s (s.index.toNat + i)) ((readReg s x).toNat % 64)) ∧
    ((∃ r : Fin 32, ∃ k < 64, s.video[r.val].getMsbD k = true ∧ t.video[r.val].getMsbD k = false) →
      readReg t VF = 1) ∧
    ((¬ ∃ r : Fin 32, ∃ k < 64, s.video[r.val].getMsbD k = true ∧ t.video[r.val].getMsbD k = false) →
      readReg t VF = 0) ∧
    SameOutside (fun it => it = .reg VF ∨
      ∃ r : Fin 32, it = .row r ∧ ∃ i < n, r.val = ((readReg s y).toNat % 32 + i) % 32) s t

/-- Bit 7 - j of a sprite byte lights column (col + j) mod 64, and no other column is lit (44_display, the placement by
rotation, which the spec marks as derived). -/
def Obligations.SpritePixelsWrapAroundTheRow : Prop :=
  ∀ (b : Byte) (col : Nat),
    (∀ j < 8, (spriteRow b col).getMsbD ((col + j) % 64) = b.getLsbD (7 - j)) ∧
    (∀ k < 64, (∀ j < 8, k ≠ (col + j) % 64) → (spriteRow b col).getMsbD k = false)

/-- Drawing the same sprite twice at one anchor restores the framebuffer; from a dark screen the first draw reports no
collision and the second reports one exactly if the sprite has a lit pixel (95_test_vectors S6). -/
def Obligations.DrawingTwiceRestoresVideo : Prop :=
  ∀ (x y : Reg) (n : Nat) (s : State), n < 16 → x ≠ VF → y ≠ VF →
    ∃ t u, exec (.drw x y n) s = .next t ∧ exec (.drw x y n) t = .next u ∧
      (∀ r : Fin 32, u.video[r.val] = s.video[r.val]) ∧
      ((∀ r : Fin 32, s.video[r.val] = 0) → readReg t VF = 0 ∧
        (readReg u VF = 1 ↔ ∃ i < n, memRead s (s.index.toNat + i) ≠ 0))

/-! ### Random, keypad and timers (45_io_timers_random) -/

/-- `RND Vx, byte`: the AND of one draw and the literal. The draw is the first byte that the host queued in the source, or,
where none is queued, a free value (log entry 4), so that this half holds for every draw. Only Vx and the source change. -/
def Obligations.RndStoresOneMaskedDraw : Prop :=
  ∀ (x : Reg) (nn : Byte) (s : State), ∃ t, exec (.rnd x nn) s = .next t ∧
    (∀ (b : Byte) (bs : List Byte), s.source.queued = b :: bs →
      (∀ k, (readReg t x).getLsbD k = (b.getLsbD k && nn.getLsbD k)) ∧ t.source = ⟨bs, s.source.stream, s.source.drawn⟩) ∧
    (s.source.queued = [] →
      (∀ k, (readReg t x).getLsbD k =
        ((Config.randByte s.source.stream s.source.drawn).getLsbD k && nn.getLsbD k)) ∧
      t.source = ⟨[], s.source.stream, s.source.drawn + 1⟩) ∧
    SameOutside (fun it => it = .reg x ∨ it = .source) s t

/-- `SKP Vx`, `SKNP Vx`: the key tested is Vx modulo 16 (decision D14, log entry 15); `pc` goes on by 2 modulo 4096 if
it is pressed, or not pressed, and stays otherwise. -/
def Obligations.SkipsOnAKey : Prop :=
  ∀ (x : Reg) (k : Key) (s : State), k.val = (readReg s x).toNat % 16 →
    (∃ t, exec (.skp x) s = .next t ∧ SameOutside (fun it => it = .pc) s t ∧
      if keyDown s k = true then t.pc.toNat = (s.pc.toNat + 2) % 4096 else t.pc = s.pc) ∧
    (∃ t, exec (.sknp x) s = .next t ∧ SameOutside (fun it => it = .pc) s t ∧
      if keyDown s k = false then t.pc.toNat = (s.pc.toNat + 2) % 4096 else t.pc = s.pc)

/-- `LD Vx, DT`, `LD DT, Vx`, `LD ST, Vx`: a copy, and nothing else changes. -/
def Obligations.TimerTransfersCopy : Prop :=
  ∀ (x : Reg) (s : State),
    (∃ t, exec (.ldVxDt x) s = .next t ∧ readReg t x = s.delayTimer ∧ SameOutside (fun it => it = .reg x) s t) ∧
    (∃ t, exec (.ldDtVx x) s = .next t ∧ t.delayTimer = readReg s x ∧
      SameOutside (fun it => it = .delayTimer) s t) ∧
    (∃ t, exec (.ldStVx x) s = .next t ∧ t.soundTimer = readReg s x ∧
      SameOutside (fun it => it = .soundTimer) s t)

/-- `LD Vx, K`: the lowest pressed key goes to Vx and nothing else changes; with no key pressed `pc` goes back by 2
modulo 4096 and nothing else changes. -/
def Obligations.KeyWaitTakesTheLowestKey : Prop :=
  ∀ (x : Reg) (s : State),
    (∀ k : Key, keyDown s k = true → (∀ j < k, keyDown s j = false) →
      ∃ t, exec (.ldVxK x) s = .next t ∧ (readReg t x).toNat = k.val ∧ SameOutside (fun it => it = .reg x) s t) ∧
    ((∀ k : Key, keyDown s k = false) →
      ∃ t, exec (.ldVxK x) s = .next t ∧ t.pc.toNat = (s.pc.toNat + 4096 - 2) % 4096 ∧
        SameOutside (fun it => it = .pc) s t)

/-! ### The cycle runner (40_fetch section 4, 60_exceptions) -/

/-- R240: a call of an unmarked state runs its n steps and then each timer goes down by 1, never below 0, once, whatever n
is; nothing else changes after the steps. The call of 0 steps on a marked state is `CallOfNoStepsOnlyDecays`. -/
def Obligations.RunCycleDecaysTimersOnceAfterItsSteps : Prop :=
  ∀ (n : Nat) (s t : State), s.fault = none → core.run n s = .next t → ∃ u, runCycle n s = .ok u ∧
    u.delayTimer.toNat = t.delayTimer.toNat - 1 ∧ u.soundTimer.toNat = t.soundTimer.toNat - 1 ∧
    SameOutside (fun it => it = .delayTimer ∨ it = .soundTimer) t u

/-- An illegal word met after k of the n steps ends the call: the error carries the address and the word, `pc` has
moved past the word, the state is marked, and nothing else has changed since the k-th step, the timers among it
(60_exceptions section 2, decision D12, log entry 6). -/
def Obligations.InvalidOpcodeEndsTheCall : Prop :=
  ∀ (k n : Nat) (s t : State) (a w : Word), core.run k s = .next t → step t = .fault (.invalidOpcode a w) → k < n →
    ∃ u, runCycle n s = .error (.invalidOpcode a w) u ∧ a = t.pc ∧ w = fetchWord t t.pc.toNat ∧
      u.pc.toNat = (t.pc.toNat + 2) % 4096 ∧ u.fault = some ⟨a, w⟩ ∧
      SameOutside (fun it => it = .pc ∨ it = .fault) t u

/-- The keys are the same after a call as before it, however it ends (40_fetch section 4). -/
def Obligations.KeypadIsConstantThroughACall : Prop :=
  ∀ (n : Nat) (s : State),
    (∀ t, runCycle n s = .ok t → t.keypad = s.keypad) ∧ ∀ f t, runCycle n s = .error f t → t.keypad = s.keypad

/-- A key wait with no key pressed uses up every step of a call: the call changes the timers only (40_fetch section
4). -/
def Obligations.KeyWaitUsesUpTheCall : Prop :=
  ∀ (n : Nat) (x : Reg) (s : State), s.fault = none → s.pc.toNat < 4096 →
    decodeWord (fetchWord s s.pc.toNat) = .ok (.ldVxK x) → (∀ k : Key, keyDown s k = false) →
    runCycle n s = .ok (decayTimers s)

/-- A parked program stays parked: a call changes the timers only (92_eei_decisions D23). -/
def Obligations.ParkedProgramOnlyLosesTimerTicks : Prop :=
  ∀ (n : Nat) (s : State), s.Parked → runCycle n s = .ok (decayTimers s) ∧ (decayTimers s).Parked

/-- Over any calls of a parked program, whatever keys, random sources and step counts the host chooses, each timer goes
down by the number of calls, stopping at 0 (95_test_vectors S8; D23, log entry 22). Between the calls the host writes
nothing else, the timers least of all (decision D20, log entry 10). -/
def Obligations.TimersRunOutOverCalls : Prop :=
  ∀ (calls : List HostCall) (s : State), s.Parked → ∃ t, runCalls calls s = .ok t ∧
    t.delayTimer.toNat = s.delayTimer.toNat - calls.length ∧ t.soundTimer.toNat = s.soundTimer.toNat - calls.length ∧
    t.Parked

/-- A call of 0 steps only decays the timers, in every state (40_fetch section 4, decision D18). That it does so in a
state that carries the fault mark is the model's choice (log entry 18): the spec does not speak of it. -/
def Obligations.CallOfNoStepsOnlyDecays : Prop :=
  ∀ s : State, ∃ u, runCycle 0 s = .ok u ∧
    u.delayTimer.toNat = s.delayTimer.toNat - 1 ∧ u.soundTimer.toNat = s.soundTimer.toNat - 1 ∧
    SameOutside (fun it => it = .delayTimer ∨ it = .soundTimer) s u

/-! ### The random source (40_fetch section 4, 60_exceptions section 5) -/

/-- The random source is what the host supplies: the Initializer's state holds the one given with the ROM, and a call
starts with the one given with the call, or else with the one that the state holds. Before a call the host writes the
keys and the source and nothing else (decision D20, log entries 4 and 10). -/
def Obligations.RandomSourceIsTheHosts : Prop :=
  (∀ (glyphs : Vector Byte 80) (rom : List Byte) (r : RandomSource) (t : State),
    initialise glyphs rom r = .next t → t.source = r) ∧
  ∀ (c : HostCall) (s : State),
    (∀ r, c.source = some r → (beginCall c s).source = r) ∧ (c.source = none → (beginCall c s).source = s.source) ∧
    (∀ k : Key, keyDown (beginCall c s) k = c.keys[k.val]) ∧
    SameOutside (fun it => (∃ k, it = .key k) ∨ it = .source) s (beginCall c s)

/-- Only `RND` reads the random source or changes it: every other instruction does the same whatever source is held
(40_fetch section 3; that the state holds the source is log entry 4). -/
def Obligations.OnlyRndReadsTheSource : Prop :=
  ∀ (i : Instr) (s t : State) (r : RandomSource), (∀ x nn, i ≠ .rnd x nn) → exec i s = .next t →
    exec i { s with source := r } = .next { t with source := r } ∧ t.source = s.source

/-- Any sequence of bytes can be injected: of RND instructions run one after another, the k-th takes the k-th byte that
the host queued, whatever the registers and the literals are, and the bytes behind them stay queued (log entry 4). -/
def Obligations.InjectedBytesAreDrawnInOrder : Prop :=
  ∀ (bytes rest : List Byte) (x : Nat → Reg) (nn : Nat → Byte) (s : State), s.source.queued = bytes ++ rest →
    ∃ f : Nat → State, f 0 = s ∧
      (∀ k, exec (.rnd (x k) (nn k)) (advancePc (f k)) = .next (f (k + 1))) ∧
      (∀ (k : Nat) (h : k < bytes.length), readReg (f (k + 1)) (x k) = bytes[k] &&& nn k) ∧
      (f bytes.length).source = ⟨rest, s.source.stream, s.source.drawn⟩
end

