-- ==== Sys2Proof/Laws/State.lean ====
section
/-! SUPPORT. What each update of the state does to each field, and to each read: one lemma for each, so that no later
proof unfolds a record update. -/

namespace Sys2Proof.Machine

variable (s : State)

/-! ### `writeReg` -/

@[simp] theorem writeReg_v (x : Reg) (b : Byte) : (writeReg x b s).v = s.v.set x.val b := rfl
@[simp] theorem writeReg_pc (x : Reg) (b : Byte) : (writeReg x b s).pc = s.pc := rfl
@[simp] theorem writeReg_index (x : Reg) (b : Byte) : (writeReg x b s).index = s.index := rfl
@[simp] theorem writeReg_sp (x : Reg) (b : Byte) : (writeReg x b s).sp = s.sp := rfl
@[simp] theorem writeReg_stack (x : Reg) (b : Byte) : (writeReg x b s).stack = s.stack := rfl
@[simp] theorem writeReg_delayTimer (x : Reg) (b : Byte) : (writeReg x b s).delayTimer = s.delayTimer := rfl
@[simp] theorem writeReg_soundTimer (x : Reg) (b : Byte) : (writeReg x b s).soundTimer = s.soundTimer := rfl
@[simp] theorem writeReg_mem (x : Reg) (b : Byte) : (writeReg x b s).mem = s.mem := rfl
@[simp] theorem writeReg_video (x : Reg) (b : Byte) : (writeReg x b s).video = s.video := rfl
@[simp] theorem writeReg_keypad (x : Reg) (b : Byte) : (writeReg x b s).keypad = s.keypad := rfl
@[simp] theorem writeReg_fault (x : Reg) (b : Byte) : (writeReg x b s).fault = s.fault := rfl
@[simp] theorem writeReg_source (x : Reg) (b : Byte) : (writeReg x b s).source = s.source := rfl
@[simp] theorem readSlot_writeReg (x : Reg) (b : Byte) (j : Fin 16) : readSlot (writeReg x b s) j = readSlot s j :=
  rfl
@[simp] theorem memRead_writeReg (x : Reg) (b : Byte) (c : Nat) : memRead (writeReg x b s) c = memRead s c := rfl
@[simp] theorem keyDown_writeReg (x : Reg) (b : Byte) (j : Key) : keyDown (writeReg x b s) j = keyDown s j := rfl

/-! ### `setIndex` -/

@[simp] theorem setIndex_v (n : Nat) : (setIndex n s).v = s.v := rfl
@[simp] theorem setIndex_pc (n : Nat) : (setIndex n s).pc = s.pc := rfl
@[simp] theorem setIndex_index (n : Nat) : (setIndex n s).index = wrapAddr n := rfl
@[simp] theorem setIndex_sp (n : Nat) : (setIndex n s).sp = s.sp := rfl
@[simp] theorem setIndex_stack (n : Nat) : (setIndex n s).stack = s.stack := rfl
@[simp] theorem setIndex_delayTimer (n : Nat) : (setIndex n s).delayTimer = s.delayTimer := rfl
@[simp] theorem setIndex_soundTimer (n : Nat) : (setIndex n s).soundTimer = s.soundTimer := rfl
@[simp] theorem setIndex_mem (n : Nat) : (setIndex n s).mem = s.mem := rfl
@[simp] theorem setIndex_video (n : Nat) : (setIndex n s).video = s.video := rfl
@[simp] theorem setIndex_keypad (n : Nat) : (setIndex n s).keypad = s.keypad := rfl
@[simp] theorem setIndex_fault (n : Nat) : (setIndex n s).fault = s.fault := rfl
@[simp] theorem setIndex_source (n : Nat) : (setIndex n s).source = s.source := rfl
@[simp] theorem readReg_setIndex (n : Nat) (y : Reg) : readReg (setIndex n s) y = readReg s y := rfl
@[simp] theorem readSlot_setIndex (n : Nat) (j : Fin 16) : readSlot (setIndex n s) j = readSlot s j := rfl
@[simp] theorem memRead_setIndex (n : Nat) (c : Nat) : memRead (setIndex n s) c = memRead s c := rfl
@[simp] theorem keyDown_setIndex (n : Nat) (j : Key) : keyDown (setIndex n s) j = keyDown s j := rfl

/-! ### `setDelay` -/

@[simp] theorem setDelay_v (b : Byte) : (setDelay b s).v = s.v := rfl
@[simp] theorem setDelay_pc (b : Byte) : (setDelay b s).pc = s.pc := rfl
@[simp] theorem setDelay_index (b : Byte) : (setDelay b s).index = s.index := rfl
@[simp] theorem setDelay_sp (b : Byte) : (setDelay b s).sp = s.sp := rfl
@[simp] theorem setDelay_stack (b : Byte) : (setDelay b s).stack = s.stack := rfl
@[simp] theorem setDelay_delayTimer (b : Byte) : (setDelay b s).delayTimer = b := rfl
@[simp] theorem setDelay_soundTimer (b : Byte) : (setDelay b s).soundTimer = s.soundTimer := rfl
@[simp] theorem setDelay_mem (b : Byte) : (setDelay b s).mem = s.mem := rfl
@[simp] theorem setDelay_video (b : Byte) : (setDelay b s).video = s.video := rfl
@[simp] theorem setDelay_keypad (b : Byte) : (setDelay b s).keypad = s.keypad := rfl
@[simp] theorem setDelay_fault (b : Byte) : (setDelay b s).fault = s.fault := rfl
@[simp] theorem setDelay_source (b : Byte) : (setDelay b s).source = s.source := rfl
@[simp] theorem readReg_setDelay (b : Byte) (y : Reg) : readReg (setDelay b s) y = readReg s y := rfl
@[simp] theorem readSlot_setDelay (b : Byte) (j : Fin 16) : readSlot (setDelay b s) j = readSlot s j := rfl
@[simp] theorem memRead_setDelay (b : Byte) (c : Nat) : memRead (setDelay b s) c = memRead s c := rfl
@[simp] theorem keyDown_setDelay (b : Byte) (j : Key) : keyDown (setDelay b s) j = keyDown s j := rfl

/-! ### `setSound` -/

@[simp] theorem setSound_v (b : Byte) : (setSound b s).v = s.v := rfl
@[simp] theorem setSound_pc (b : Byte) : (setSound b s).pc = s.pc := rfl
@[simp] theorem setSound_index (b : Byte) : (setSound b s).index = s.index := rfl
@[simp] theorem setSound_sp (b : Byte) : (setSound b s).sp = s.sp := rfl
@[simp] theorem setSound_stack (b : Byte) : (setSound b s).stack = s.stack := rfl
@[simp] theorem setSound_delayTimer (b : Byte) : (setSound b s).delayTimer = s.delayTimer := rfl
@[simp] theorem setSound_soundTimer (b : Byte) : (setSound b s).soundTimer = b := rfl
@[simp] theorem setSound_mem (b : Byte) : (setSound b s).mem = s.mem := rfl
@[simp] theorem setSound_video (b : Byte) : (setSound b s).video = s.video := rfl
@[simp] theorem setSound_keypad (b : Byte) : (setSound b s).keypad = s.keypad := rfl
@[simp] theorem setSound_fault (b : Byte) : (setSound b s).fault = s.fault := rfl
@[simp] theorem setSound_source (b : Byte) : (setSound b s).source = s.source := rfl
@[simp] theorem readReg_setSound (b : Byte) (y : Reg) : readReg (setSound b s) y = readReg s y := rfl
@[simp] theorem readSlot_setSound (b : Byte) (j : Fin 16) : readSlot (setSound b s) j = readSlot s j := rfl
@[simp] theorem memRead_setSound (b : Byte) (c : Nat) : memRead (setSound b s) c = memRead s c := rfl
@[simp] theorem keyDown_setSound (b : Byte) (j : Key) : keyDown (setSound b s) j = keyDown s j := rfl

/-! ### `setPc` -/

@[simp] theorem setPc_v (n : Nat) : (setPc n s).v = s.v := rfl
@[simp] theorem setPc_pc (n : Nat) : (setPc n s).pc = wrapAddr n := rfl
@[simp] theorem setPc_index (n : Nat) : (setPc n s).index = s.index := rfl
@[simp] theorem setPc_sp (n : Nat) : (setPc n s).sp = s.sp := rfl
@[simp] theorem setPc_stack (n : Nat) : (setPc n s).stack = s.stack := rfl
@[simp] theorem setPc_delayTimer (n : Nat) : (setPc n s).delayTimer = s.delayTimer := rfl
@[simp] theorem setPc_soundTimer (n : Nat) : (setPc n s).soundTimer = s.soundTimer := rfl
@[simp] theorem setPc_mem (n : Nat) : (setPc n s).mem = s.mem := rfl
@[simp] theorem setPc_video (n : Nat) : (setPc n s).video = s.video := rfl
@[simp] theorem setPc_keypad (n : Nat) : (setPc n s).keypad = s.keypad := rfl
@[simp] theorem setPc_fault (n : Nat) : (setPc n s).fault = s.fault := rfl
@[simp] theorem setPc_source (n : Nat) : (setPc n s).source = s.source := rfl
@[simp] theorem readReg_setPc (n : Nat) (y : Reg) : readReg (setPc n s) y = readReg s y := rfl
@[simp] theorem readSlot_setPc (n : Nat) (j : Fin 16) : readSlot (setPc n s) j = readSlot s j := rfl
@[simp] theorem memRead_setPc (n : Nat) (c : Nat) : memRead (setPc n s) c = memRead s c := rfl
@[simp] theorem keyDown_setPc (n : Nat) (j : Key) : keyDown (setPc n s) j = keyDown s j := rfl

/-! ### `advancePc` -/

@[simp] theorem advancePc_v : (advancePc s).v = s.v := rfl
@[simp] theorem advancePc_pc : (advancePc s).pc = wrapAddr (s.pc.toNat + 2) := rfl
@[simp] theorem advancePc_index : (advancePc s).index = s.index := rfl
@[simp] theorem advancePc_sp : (advancePc s).sp = s.sp := rfl
@[simp] theorem advancePc_stack : (advancePc s).stack = s.stack := rfl
@[simp] theorem advancePc_delayTimer : (advancePc s).delayTimer = s.delayTimer := rfl
@[simp] theorem advancePc_soundTimer : (advancePc s).soundTimer = s.soundTimer := rfl
@[simp] theorem advancePc_mem : (advancePc s).mem = s.mem := rfl
@[simp] theorem advancePc_video : (advancePc s).video = s.video := rfl
@[simp] theorem advancePc_keypad : (advancePc s).keypad = s.keypad := rfl
@[simp] theorem advancePc_fault : (advancePc s).fault = s.fault := rfl
@[simp] theorem advancePc_source : (advancePc s).source = s.source := rfl
@[simp] theorem readReg_advancePc (y : Reg) : readReg (advancePc s) y = readReg s y := rfl
@[simp] theorem readSlot_advancePc (j : Fin 16) : readSlot (advancePc s) j = readSlot s j := rfl
@[simp] theorem memRead_advancePc (c : Nat) : memRead (advancePc s) c = memRead s c := rfl
@[simp] theorem keyDown_advancePc (j : Key) : keyDown (advancePc s) j = keyDown s j := rfl

/-! ### `rewindPc` -/

@[simp] theorem rewindPc_v : (rewindPc s).v = s.v := rfl
@[simp] theorem rewindPc_pc : (rewindPc s).pc = wrapAddr (4094 + s.pc.toNat) := rfl
@[simp] theorem rewindPc_index : (rewindPc s).index = s.index := rfl
@[simp] theorem rewindPc_sp : (rewindPc s).sp = s.sp := rfl
@[simp] theorem rewindPc_stack : (rewindPc s).stack = s.stack := rfl
@[simp] theorem rewindPc_delayTimer : (rewindPc s).delayTimer = s.delayTimer := rfl
@[simp] theorem rewindPc_soundTimer : (rewindPc s).soundTimer = s.soundTimer := rfl
@[simp] theorem rewindPc_mem : (rewindPc s).mem = s.mem := rfl
@[simp] theorem rewindPc_video : (rewindPc s).video = s.video := rfl
@[simp] theorem rewindPc_keypad : (rewindPc s).keypad = s.keypad := rfl
@[simp] theorem rewindPc_fault : (rewindPc s).fault = s.fault := rfl
@[simp] theorem rewindPc_source : (rewindPc s).source = s.source := rfl
@[simp] theorem readReg_rewindPc (y : Reg) : readReg (rewindPc s) y = readReg s y := rfl
@[simp] theorem readSlot_rewindPc (j : Fin 16) : readSlot (rewindPc s) j = readSlot s j := rfl
@[simp] theorem memRead_rewindPc (c : Nat) : memRead (rewindPc s) c = memRead s c := rfl
@[simp] theorem keyDown_rewindPc (j : Key) : keyDown (rewindPc s) j = keyDown s j := rfl

/-! ### `writeSlot` -/

@[simp] theorem writeSlot_v (k : Fin 16) (w : Word) : (writeSlot k w s).v = s.v := rfl
@[simp] theorem writeSlot_pc (k : Fin 16) (w : Word) : (writeSlot k w s).pc = s.pc := rfl
@[simp] theorem writeSlot_index (k : Fin 16) (w : Word) : (writeSlot k w s).index = s.index := rfl
@[simp] theorem writeSlot_sp (k : Fin 16) (w : Word) : (writeSlot k w s).sp = s.sp := rfl
@[simp] theorem writeSlot_stack (k : Fin 16) (w : Word) : (writeSlot k w s).stack = s.stack.set k.val w := rfl
@[simp] theorem writeSlot_delayTimer (k : Fin 16) (w : Word) : (writeSlot k w s).delayTimer = s.delayTimer := rfl
@[simp] theorem writeSlot_soundTimer (k : Fin 16) (w : Word) : (writeSlot k w s).soundTimer = s.soundTimer := rfl
@[simp] theorem writeSlot_mem (k : Fin 16) (w : Word) : (writeSlot k w s).mem = s.mem := rfl
@[simp] theorem writeSlot_video (k : Fin 16) (w : Word) : (writeSlot k w s).video = s.video := rfl
@[simp] theorem writeSlot_keypad (k : Fin 16) (w : Word) : (writeSlot k w s).keypad = s.keypad := rfl
@[simp] theorem writeSlot_fault (k : Fin 16) (w : Word) : (writeSlot k w s).fault = s.fault := rfl
@[simp] theorem writeSlot_source (k : Fin 16) (w : Word) : (writeSlot k w s).source = s.source := rfl
@[simp] theorem readReg_writeSlot (k : Fin 16) (w : Word) (y : Reg) : readReg (writeSlot k w s) y = readReg s y := rfl
@[simp] theorem memRead_writeSlot (k : Fin 16) (w : Word) (c : Nat) : memRead (writeSlot k w s) c = memRead s c := rfl
@[simp] theorem keyDown_writeSlot (k : Fin 16) (w : Word) (j : Key) : keyDown (writeSlot k w s) j = keyDown s j := rfl

/-! ### `pushPc` -/

@[simp] theorem pushPc_v : (pushPc s).v = s.v := rfl
@[simp] theorem pushPc_pc : (pushPc s).pc = s.pc := rfl
@[simp] theorem pushPc_index : (pushPc s).index = s.index := rfl
@[simp] theorem pushPc_sp : (pushPc s).sp = nextSp s.sp := rfl
@[simp] theorem pushPc_stack : (pushPc s).stack = s.stack.set (slotOf s.sp).val s.pc := rfl
@[simp] theorem pushPc_delayTimer : (pushPc s).delayTimer = s.delayTimer := rfl
@[simp] theorem pushPc_soundTimer : (pushPc s).soundTimer = s.soundTimer := rfl
@[simp] theorem pushPc_mem : (pushPc s).mem = s.mem := rfl
@[simp] theorem pushPc_video : (pushPc s).video = s.video := rfl
@[simp] theorem pushPc_keypad : (pushPc s).keypad = s.keypad := rfl
@[simp] theorem pushPc_fault : (pushPc s).fault = s.fault := rfl
@[simp] theorem pushPc_source : (pushPc s).source = s.source := rfl
@[simp] theorem readReg_pushPc (y : Reg) : readReg (pushPc s) y = readReg s y := rfl
@[simp] theorem memRead_pushPc (c : Nat) : memRead (pushPc s) c = memRead s c := rfl
@[simp] theorem keyDown_pushPc (j : Key) : keyDown (pushPc s) j = keyDown s j := rfl

/-! ### `popPc` -/

@[simp] theorem popPc_v : (popPc s).v = s.v := rfl
@[simp] theorem popPc_pc : (popPc s).pc = wrapAddr (readSlot s (slotOf (prevSp s.sp))).toNat := rfl
@[simp] theorem popPc_index : (popPc s).index = s.index := rfl
@[simp] theorem popPc_sp : (popPc s).sp = prevSp s.sp := rfl
@[simp] theorem popPc_stack : (popPc s).stack = s.stack := rfl
@[simp] theorem popPc_delayTimer : (popPc s).delayTimer = s.delayTimer := rfl
@[simp] theorem popPc_soundTimer : (popPc s).soundTimer = s.soundTimer := rfl
@[simp] theorem popPc_mem : (popPc s).mem = s.mem := rfl
@[simp] theorem popPc_video : (popPc s).video = s.video := rfl
@[simp] theorem popPc_keypad : (popPc s).keypad = s.keypad := rfl
@[simp] theorem popPc_fault : (popPc s).fault = s.fault := rfl
@[simp] theorem popPc_source : (popPc s).source = s.source := rfl
@[simp] theorem readReg_popPc (y : Reg) : readReg (popPc s) y = readReg s y := rfl
@[simp] theorem readSlot_popPc (j : Fin 16) : readSlot (popPc s) j = readSlot s j := rfl
@[simp] theorem memRead_popPc (c : Nat) : memRead (popPc s) c = memRead s c := rfl
@[simp] theorem keyDown_popPc (j : Key) : keyDown (popPc s) j = keyDown s j := rfl

/-! ### `memWrite` -/

@[simp] theorem memWrite_v (a : Nat) (b : Byte) : (memWrite a b s).v = s.v := rfl
@[simp] theorem memWrite_pc (a : Nat) (b : Byte) : (memWrite a b s).pc = s.pc := rfl
@[simp] theorem memWrite_index (a : Nat) (b : Byte) : (memWrite a b s).index = s.index := rfl
@[simp] theorem memWrite_sp (a : Nat) (b : Byte) : (memWrite a b s).sp = s.sp := rfl
@[simp] theorem memWrite_stack (a : Nat) (b : Byte) : (memWrite a b s).stack = s.stack := rfl
@[simp] theorem memWrite_delayTimer (a : Nat) (b : Byte) : (memWrite a b s).delayTimer = s.delayTimer := rfl
@[simp] theorem memWrite_soundTimer (a : Nat) (b : Byte) : (memWrite a b s).soundTimer = s.soundTimer := rfl
@[simp] theorem memWrite_mem (a : Nat) (b : Byte) : (memWrite a b s).mem = writeCell s.mem (a % 4096) b := rfl
@[simp] theorem memWrite_video (a : Nat) (b : Byte) : (memWrite a b s).video = s.video := rfl
@[simp] theorem memWrite_keypad (a : Nat) (b : Byte) : (memWrite a b s).keypad = s.keypad := rfl
@[simp] theorem memWrite_fault (a : Nat) (b : Byte) : (memWrite a b s).fault = s.fault := rfl
@[simp] theorem memWrite_source (a : Nat) (b : Byte) : (memWrite a b s).source = s.source := rfl
@[simp] theorem readReg_memWrite (a : Nat) (b : Byte) (y : Reg) : readReg (memWrite a b s) y = readReg s y := rfl
@[simp] theorem readSlot_memWrite (a : Nat) (b : Byte) (j : Fin 16) : readSlot (memWrite a b s) j = readSlot s j :=
  rfl
@[simp] theorem keyDown_memWrite (a : Nat) (b : Byte) (j : Key) : keyDown (memWrite a b s) j = keyDown s j := rfl

/-! ### `takeDraw` -/

@[simp] theorem takeDraw_v : (takeDraw s).v = s.v := rfl
@[simp] theorem takeDraw_pc : (takeDraw s).pc = s.pc := rfl
@[simp] theorem takeDraw_index : (takeDraw s).index = s.index := rfl
@[simp] theorem takeDraw_sp : (takeDraw s).sp = s.sp := rfl
@[simp] theorem takeDraw_stack : (takeDraw s).stack = s.stack := rfl
@[simp] theorem takeDraw_delayTimer : (takeDraw s).delayTimer = s.delayTimer := rfl
@[simp] theorem takeDraw_soundTimer : (takeDraw s).soundTimer = s.soundTimer := rfl
@[simp] theorem takeDraw_mem : (takeDraw s).mem = s.mem := rfl
@[simp] theorem takeDraw_video : (takeDraw s).video = s.video := rfl
@[simp] theorem takeDraw_keypad : (takeDraw s).keypad = s.keypad := rfl
@[simp] theorem takeDraw_fault : (takeDraw s).fault = s.fault := rfl
@[simp] theorem takeDraw_source : (takeDraw s).source = afterDraw s.source := rfl
@[simp] theorem readReg_takeDraw (y : Reg) : readReg (takeDraw s) y = readReg s y := rfl
@[simp] theorem readSlot_takeDraw (j : Fin 16) : readSlot (takeDraw s) j = readSlot s j := rfl
@[simp] theorem memRead_takeDraw (c : Nat) : memRead (takeDraw s) c = memRead s c := rfl
@[simp] theorem keyDown_takeDraw (j : Key) : keyDown (takeDraw s) j = keyDown s j := rfl

/-! ### `loadThrough` -/

@[simp] theorem loadThrough_pc (x : Reg) : (loadThrough x s).pc = s.pc := by simp only [loadThrough]
@[simp] theorem loadThrough_index (x : Reg) : (loadThrough x s).index = s.index := by simp only [loadThrough]
@[simp] theorem loadThrough_sp (x : Reg) : (loadThrough x s).sp = s.sp := by simp only [loadThrough]
@[simp] theorem loadThrough_stack (x : Reg) : (loadThrough x s).stack = s.stack := by simp only [loadThrough]
@[simp] theorem loadThrough_delayTimer (x : Reg) : (loadThrough x s).delayTimer = s.delayTimer :=
  by simp only [loadThrough]
@[simp] theorem loadThrough_soundTimer (x : Reg) : (loadThrough x s).soundTimer = s.soundTimer :=
  by simp only [loadThrough]
@[simp] theorem loadThrough_mem (x : Reg) : (loadThrough x s).mem = s.mem := by simp only [loadThrough]
@[simp] theorem loadThrough_video (x : Reg) : (loadThrough x s).video = s.video := by simp only [loadThrough]
@[simp] theorem loadThrough_keypad (x : Reg) : (loadThrough x s).keypad = s.keypad := by simp only [loadThrough]
@[simp] theorem loadThrough_fault (x : Reg) : (loadThrough x s).fault = s.fault := by simp only [loadThrough]
@[simp] theorem loadThrough_source (x : Reg) : (loadThrough x s).source = s.source := by simp only [loadThrough]
@[simp] theorem readSlot_loadThrough (x : Reg) (j : Fin 16) : readSlot (loadThrough x s) j = readSlot s j :=
  by simp only [readSlot, loadThrough]
@[simp] theorem memRead_loadThrough (x : Reg) (c : Nat) : memRead (loadThrough x s) c = memRead s c :=
  by simp only [memRead, loadThrough]
@[simp] theorem keyDown_loadThrough (x : Reg) (j : Key) : keyDown (loadThrough x s) j = keyDown s j :=
  by simp only [keyDown, loadThrough]

/-! ### `takeInvalidOpcode` -/

@[simp] theorem takeInvalidOpcode_v (a w : Word) : (takeInvalidOpcode a w s).v = s.v := rfl
@[simp] theorem takeInvalidOpcode_pc (a w : Word) : (takeInvalidOpcode a w s).pc = wrapAddr (s.pc.toNat + 2) := rfl
@[simp] theorem takeInvalidOpcode_index (a w : Word) : (takeInvalidOpcode a w s).index = s.index := rfl
@[simp] theorem takeInvalidOpcode_sp (a w : Word) : (takeInvalidOpcode a w s).sp = s.sp := rfl
@[simp] theorem takeInvalidOpcode_stack (a w : Word) : (takeInvalidOpcode a w s).stack = s.stack := rfl
@[simp] theorem takeInvalidOpcode_delayTimer (a w : Word) : (takeInvalidOpcode a w s).delayTimer = s.delayTimer := rfl
@[simp] theorem takeInvalidOpcode_soundTimer (a w : Word) : (takeInvalidOpcode a w s).soundTimer = s.soundTimer := rfl
@[simp] theorem takeInvalidOpcode_mem (a w : Word) : (takeInvalidOpcode a w s).mem = s.mem := rfl
@[simp] theorem takeInvalidOpcode_video (a w : Word) : (takeInvalidOpcode a w s).video = s.video := rfl
@[simp] theorem takeInvalidOpcode_keypad (a w : Word) : (takeInvalidOpcode a w s).keypad = s.keypad := rfl
@[simp] theorem takeInvalidOpcode_fault (a w : Word) : (takeInvalidOpcode a w s).fault = some ⟨a, w⟩ := rfl
@[simp] theorem takeInvalidOpcode_source (a w : Word) : (takeInvalidOpcode a w s).source = s.source := rfl
@[simp] theorem readReg_takeInvalidOpcode (a w : Word) (y : Reg) :
    readReg (takeInvalidOpcode a w s) y = readReg s y := rfl
@[simp] theorem readSlot_takeInvalidOpcode (a w : Word) (j : Fin 16) :
    readSlot (takeInvalidOpcode a w s) j = readSlot s j := rfl
@[simp] theorem memRead_takeInvalidOpcode (a w : Word) (c : Nat) :
    memRead (takeInvalidOpcode a w s) c = memRead s c := rfl
@[simp] theorem keyDown_takeInvalidOpcode (a w : Word) (j : Key) :
    keyDown (takeInvalidOpcode a w s) j = keyDown s j := rfl

/-! ### `decayTimers` -/

@[simp] theorem decayTimers_v : (decayTimers s).v = s.v := rfl
@[simp] theorem decayTimers_pc : (decayTimers s).pc = s.pc := rfl
@[simp] theorem decayTimers_index : (decayTimers s).index = s.index := rfl
@[simp] theorem decayTimers_sp : (decayTimers s).sp = s.sp := rfl
@[simp] theorem decayTimers_stack : (decayTimers s).stack = s.stack := rfl
@[simp] theorem decayTimers_delayTimer : (decayTimers s).delayTimer = decayed s.delayTimer := rfl
@[simp] theorem decayTimers_soundTimer : (decayTimers s).soundTimer = decayed s.soundTimer := rfl
@[simp] theorem decayTimers_mem : (decayTimers s).mem = s.mem := rfl
@[simp] theorem decayTimers_video : (decayTimers s).video = s.video := rfl
@[simp] theorem decayTimers_keypad : (decayTimers s).keypad = s.keypad := rfl
@[simp] theorem decayTimers_fault : (decayTimers s).fault = s.fault := rfl
@[simp] theorem decayTimers_source : (decayTimers s).source = s.source := rfl
@[simp] theorem readReg_decayTimers (y : Reg) : readReg (decayTimers s) y = readReg s y := rfl
@[simp] theorem readSlot_decayTimers (j : Fin 16) : readSlot (decayTimers s) j = readSlot s j := rfl
@[simp] theorem memRead_decayTimers (c : Nat) : memRead (decayTimers s) c = memRead s c := rfl
@[simp] theorem keyDown_decayTimers (j : Key) : keyDown (decayTimers s) j = keyDown s j := rfl

/-! ### `setKeypad` -/

@[simp] theorem setKeypad_v (keys : Vector Bool 16) : (setKeypad keys s).v = s.v := rfl
@[simp] theorem setKeypad_pc (keys : Vector Bool 16) : (setKeypad keys s).pc = s.pc := rfl
@[simp] theorem setKeypad_index (keys : Vector Bool 16) : (setKeypad keys s).index = s.index := rfl
@[simp] theorem setKeypad_sp (keys : Vector Bool 16) : (setKeypad keys s).sp = s.sp := rfl
@[simp] theorem setKeypad_stack (keys : Vector Bool 16) : (setKeypad keys s).stack = s.stack := rfl
@[simp] theorem setKeypad_delayTimer (keys : Vector Bool 16) : (setKeypad keys s).delayTimer = s.delayTimer := rfl
@[simp] theorem setKeypad_soundTimer (keys : Vector Bool 16) : (setKeypad keys s).soundTimer = s.soundTimer := rfl
@[simp] theorem setKeypad_mem (keys : Vector Bool 16) : (setKeypad keys s).mem = s.mem := rfl
@[simp] theorem setKeypad_video (keys : Vector Bool 16) : (setKeypad keys s).video = s.video := rfl
@[simp] theorem setKeypad_keypad (keys : Vector Bool 16) : (setKeypad keys s).keypad = keys := rfl
@[simp] theorem setKeypad_fault (keys : Vector Bool 16) : (setKeypad keys s).fault = s.fault := rfl
@[simp] theorem setKeypad_source (keys : Vector Bool 16) : (setKeypad keys s).source = s.source := rfl
@[simp] theorem readReg_setKeypad (keys : Vector Bool 16) (y : Reg) : readReg (setKeypad keys s) y = readReg s y :=
  rfl
@[simp] theorem readSlot_setKeypad (keys : Vector Bool 16) (j : Fin 16) :
    readSlot (setKeypad keys s) j = readSlot s j := rfl
@[simp] theorem memRead_setKeypad (keys : Vector Bool 16) (c : Nat) : memRead (setKeypad keys s) c = memRead s c :=
  rfl

/-! ### `setSource` -/

@[simp] theorem setSource_v (r : Option RandomSource) : (setSource r s).v = s.v := rfl
@[simp] theorem setSource_pc (r : Option RandomSource) : (setSource r s).pc = s.pc := rfl
@[simp] theorem setSource_index (r : Option RandomSource) : (setSource r s).index = s.index := rfl
@[simp] theorem setSource_sp (r : Option RandomSource) : (setSource r s).sp = s.sp := rfl
@[simp] theorem setSource_stack (r : Option RandomSource) : (setSource r s).stack = s.stack := rfl
@[simp] theorem setSource_delayTimer (r : Option RandomSource) : (setSource r s).delayTimer = s.delayTimer := rfl
@[simp] theorem setSource_soundTimer (r : Option RandomSource) : (setSource r s).soundTimer = s.soundTimer := rfl
@[simp] theorem setSource_mem (r : Option RandomSource) : (setSource r s).mem = s.mem := rfl
@[simp] theorem setSource_video (r : Option RandomSource) : (setSource r s).video = s.video := rfl
@[simp] theorem setSource_keypad (r : Option RandomSource) : (setSource r s).keypad = s.keypad := rfl
@[simp] theorem setSource_fault (r : Option RandomSource) : (setSource r s).fault = s.fault := rfl
@[simp] theorem setSource_source (r : Option RandomSource) : (setSource r s).source = r.getD s.source := rfl
@[simp] theorem readReg_setSource (r : Option RandomSource) (y : Reg) : readReg (setSource r s) y = readReg s y := rfl
@[simp] theorem readSlot_setSource (r : Option RandomSource) (j : Fin 16) :
    readSlot (setSource r s) j = readSlot s j := rfl
@[simp] theorem memRead_setSource (r : Option RandomSource) (c : Nat) : memRead (setSource r s) c = memRead s c := rfl
@[simp] theorem keyDown_setSource (r : Option RandomSource) (j : Key) : keyDown (setSource r s) j = keyDown s j := rfl

/-! ### `beginCall` -/

@[simp] theorem beginCall_v (hc : HostCall) : (beginCall hc s).v = s.v := rfl
@[simp] theorem beginCall_pc (hc : HostCall) : (beginCall hc s).pc = s.pc := rfl
@[simp] theorem beginCall_index (hc : HostCall) : (beginCall hc s).index = s.index := rfl
@[simp] theorem beginCall_sp (hc : HostCall) : (beginCall hc s).sp = s.sp := rfl
@[simp] theorem beginCall_stack (hc : HostCall) : (beginCall hc s).stack = s.stack := rfl
@[simp] theorem beginCall_delayTimer (hc : HostCall) : (beginCall hc s).delayTimer = s.delayTimer := rfl
@[simp] theorem beginCall_soundTimer (hc : HostCall) : (beginCall hc s).soundTimer = s.soundTimer := rfl
@[simp] theorem beginCall_mem (hc : HostCall) : (beginCall hc s).mem = s.mem := rfl
@[simp] theorem beginCall_video (hc : HostCall) : (beginCall hc s).video = s.video := rfl
@[simp] theorem beginCall_keypad (hc : HostCall) : (beginCall hc s).keypad = hc.keys := rfl
@[simp] theorem beginCall_fault (hc : HostCall) : (beginCall hc s).fault = s.fault := rfl
@[simp] theorem beginCall_source (hc : HostCall) : (beginCall hc s).source = hc.source.getD s.source := rfl
@[simp] theorem readReg_beginCall (hc : HostCall) (y : Reg) : readReg (beginCall hc s) y = readReg s y := rfl
@[simp] theorem readSlot_beginCall (hc : HostCall) (j : Fin 16) : readSlot (beginCall hc s) j = readSlot s j := rfl
@[simp] theorem memRead_beginCall (hc : HostCall) (c : Nat) : memRead (beginCall hc s) c = memRead s c := rfl

/-! ### `placeWord` -/

@[simp] theorem placeWord_v (w : Word) : (placeWord w s).v = s.v := rfl
@[simp] theorem placeWord_pc (w : Word) : (placeWord w s).pc = s.pc := rfl
@[simp] theorem placeWord_index (w : Word) : (placeWord w s).index = s.index := rfl
@[simp] theorem placeWord_sp (w : Word) : (placeWord w s).sp = s.sp := rfl
@[simp] theorem placeWord_stack (w : Word) : (placeWord w s).stack = s.stack := rfl
@[simp] theorem placeWord_delayTimer (w : Word) : (placeWord w s).delayTimer = s.delayTimer := rfl
@[simp] theorem placeWord_soundTimer (w : Word) : (placeWord w s).soundTimer = s.soundTimer := rfl
@[simp] theorem placeWord_video (w : Word) : (placeWord w s).video = s.video := rfl
@[simp] theorem placeWord_keypad (w : Word) : (placeWord w s).keypad = s.keypad := rfl
@[simp] theorem placeWord_fault (w : Word) : (placeWord w s).fault = none := rfl
@[simp] theorem placeWord_source (w : Word) : (placeWord w s).source = s.source := rfl
@[simp] theorem readReg_placeWord (w : Word) (y : Reg) : readReg (placeWord w s) y = readReg s y := rfl
@[simp] theorem readSlot_placeWord (w : Word) (j : Fin 16) : readSlot (placeWord w s) j = readSlot s j := rfl
@[simp] theorem keyDown_placeWord (w : Word) (j : Key) : keyDown (placeWord w s) j = keyDown s j := rfl

end Sys2Proof.Machine
end

