-- ==== Sys2Proof/Laws/Display.lean ====
section
/-! SUPPORT. What the rows of a draw do to the framebuffer and when they collide. -/

namespace Sys2Proof.Machine

/-- Two of the first 32 rows from an anchor are different rows (44_display R191, R193). -/
theorem targetRow_ne {row i j : Nat} (hij : i ≠ j) (hi : i < 32) (hj : j < 32) :
    targetRow row i ≠ targetRow row j := by
  simp only [targetRow, ne_eq, Fin.mk.injEq]
  omega

/-- A row that no sprite row goes to keeps its pixels. -/
theorem drawRows_video_miss (s : State) (col row n : Nat) (c : Canvas) (r : Fin 32)
    (h : ∀ i < n, r ≠ targetRow row i) : (drawRows s col row n c).video[r.val] = c.video[r.val] := by
  induction n with
  | zero => rfl
  | succ n ih =>
    have hr : (targetRow row n).val ≠ r.val := fun e => h n (Nat.lt_succ_self n) (Fin.ext e.symm)
    simp only [drawRows, drawRow, Vector.getElem_set_ne _ _ hr]
    exact ih fun i hi => h i (Nat.lt_succ_of_lt hi)

/-- The row that sprite row i goes to is XORed with it once. -/
theorem drawRows_video_hit (s : State) (col row : Nat) {n : Nat} (c : Canvas) {i : Nat} (hi : i < n) (hn : n ≤ 32) :
    (drawRows s col row n c).video[(targetRow row i).val] =
      c.video[(targetRow row i).val] ^^^ spriteRow (memRead s (indexed s i)) col := by
  induction n with
  | zero => omega
  | succ n ih =>
    by_cases he : i = n
    · subst he
      simp only [drawRows, drawRow, Vector.getElem_set_self]
      rw [drawRows_video_miss]
      intro j hj
      exact targetRow_ne (by omega) (by omega) (by omega)
    · have hr : (targetRow row n).val ≠ (targetRow row i).val := fun e =>
        targetRow_ne (Ne.symm he) (by omega) (by omega) (Fin.ext e)
      simp only [drawRows, drawRow, Vector.getElem_set_ne _ _ hr]
      exact ih (by omega) (by omega)

/-- The draw has hit exactly if it had hit before or some sprite row meets a lit pixel of the row it goes to. -/
theorem drawRows_hit (s : State) (col row : Nat) {n : Nat} (c : Canvas) (hn : n ≤ 32) :
    (drawRows s col row n c).hit = true ↔ c.hit = true ∨ ∃ i < n,
      c.video[(targetRow row i).val] &&& spriteRow (memRead s (indexed s i)) col ≠ 0 := by
  induction n with
  | zero => simp [drawRows]
  | succ n ih =>
    have hrow : (drawRows s col row n c).video[(targetRow row n).val] = c.video[(targetRow row n).val] :=
      drawRows_video_miss _ _ _ _ _ _ fun i hi => targetRow_ne (by omega) (by omega) (by omega)
    simp only [drawRows, drawRow, hrow, Bool.or_eq_true, ih (by omega), bne_iff_ne, or_assoc]
    refine or_congr_right ⟨?_, ?_⟩
    · rintro (⟨i, hi, h⟩ | h)
      · exact ⟨i, by omega, h⟩
      · exact ⟨n, by omega, h⟩
    · rintro ⟨i, hi, h⟩
      by_cases he : i = n
      · exact .inr (he ▸ h)
      · exact .inl ⟨i, by omega, h⟩

end Sys2Proof.Machine
end

