-- ==== Sys2Proof/Laws/Encoding.lean ====
section
/-! SUPPORT. The fields, the encoder's words and the opcode map's masks as numbers, so that questions about encodings
become arithmetic. -/

namespace Sys2Proof

/-! ### Fields as numbers -/

theorem opField_toNat (w : Word) : (opField w).toNat = w.toNat / 4096 % 16 := by
  simp [opField, Nat.shiftRight_eq_div_pow]

theorem xField_val (w : Word) : (xField w).val = w.toNat / 256 % 16 := by
  simp [xField, xBits, regOfBits, Nat.shiftRight_eq_div_pow]

theorem yField_val (w : Word) : (yField w).val = w.toNat / 16 % 16 := by
  simp [yField, yBits, regOfBits, Nat.shiftRight_eq_div_pow]

theorem nField_toNat (w : Word) : (nField w).toNat = w.toNat % 16 := by
  simp [nField]

theorem nnField_toNat (w : Word) : (nnField w).toNat = w.toNat % 256 := by
  simp [nnField]

theorem nnnField_toNat (w : Word) : (nnnField w).toNat = w.toNat % 4096 := by
  simp [nnnField]

theorem wordA_toNat {op : Nat} (h : op < 16) (nnn : BitVec 12) : (wordA op nnn).toNat = op * 4096 + nnn.toNat := by
  have := nnn.isLt
  simp only [wordA, BitVec.toNat_ofNat]
  omega

theorem wordXNN_toNat {op : Nat} (h : op < 16) (x : Reg) (nn : Byte) :
    (wordXNN op x nn).toNat = op * 4096 + x.val * 256 + nn.toNat := by
  have := nn.isLt
  simp only [wordXNN, BitVec.toNat_ofNat]
  omega

theorem wordXYN_toNat {op : Nat} (h : op < 16) (x y : Reg) (n : Nat) :
    (wordXYN op x y n).toNat = op * 4096 + x.val * 256 + y.val * 16 + n % 16 := by
  simp only [wordXYN, BitVec.toNat_ofNat]
  omega

theorem wordOfBytes_toNat (hi lo : Byte) : (wordOfBytes hi lo).toNat = hi.toNat * 256 + lo.toNat := by
  have := hi.isLt
  have := lo.isLt
  simp only [wordOfBytes, BitVec.toNat_ofNat]
  omega

/-- The two bytes of a word make the word (20_memory R56). -/
theorem wordOfBytes_hiByte_loByte (w : Word) : wordOfBytes (hiByte w) (loByte w) = w := by
  apply BitVec.eq_of_toNat_eq
  have := w.isLt
  simp only [wordOfBytes_toNat, hiByte, loByte, BitVec.extractLsb'_toNat, Nat.shiftRight_eq_div_pow]
  omega

/-! ### Masks as fields (30_encoding R86) -/

theorem toNat_and_F000 (w : Word) : (w &&& 0xF000#16).toNat = w.toNat / 4096 % 16 * 4096 := by
  have h : w &&& 0xF000#16 = (opField w).zeroExtend 16 <<< 12 := by
    ext i hi
    interval_cases i <;> simp [opField]
  have := w.isLt
  rw [h]
  simp [opField_toNat]
  omega

theorem toNat_and_F00F (w : Word) : (w &&& 0xF00F#16).toNat = w.toNat / 4096 % 16 * 4096 + w.toNat % 16 := by
  have h : w &&& 0xF00F#16 = (w &&& 0xF000#16) + (nField w).zeroExtend 16 := by
    rw [BitVec.add_eq_or_of_and_eq_zero]
    · ext i hi
      interval_cases i <;> simp [nField]
    · ext i hi
      interval_cases i <;> simp [nField]
  have := w.isLt
  rw [h]
  rw [BitVec.toNat_add, toNat_and_F000]
  simp only [BitVec.toNat_setWidth, nField_toNat]
  omega

theorem toNat_and_F0FF (w : Word) : (w &&& 0xF0FF#16).toNat = w.toNat / 4096 % 16 * 4096 + w.toNat % 256 := by
  have h : w &&& 0xF0FF#16 = (w &&& 0xF000#16) + (nnField w).zeroExtend 16 := by
    rw [BitVec.add_eq_or_of_and_eq_zero]
    · ext i hi
      interval_cases i <;> simp [nnField]
    · ext i hi
      interval_cases i <;> simp [nnField]
  have := w.isLt
  rw [h]
  rw [BitVec.toNat_add, toNat_and_F000]
  simp only [BitVec.toNat_setWidth, nnField_toNat]
  omega

/-! ### The encoder's words under the masks -/

theorem wordA_and_F000 {op : Nat} (h : op < 16) (nnn : BitVec 12) :
    wordA op nnn &&& 0xF000#16 = BitVec.ofNat 16 (op * 4096) := by
  apply BitVec.eq_of_toNat_eq
  have := nnn.isLt
  rw [toNat_and_F000, wordA_toNat h]
  simp only [BitVec.toNat_ofNat]
  omega

theorem wordXNN_and_F000 {op : Nat} (h : op < 16) (x : Reg) (nn : Byte) :
    wordXNN op x nn &&& 0xF000#16 = BitVec.ofNat 16 (op * 4096) := by
  apply BitVec.eq_of_toNat_eq
  have := nn.isLt
  rw [toNat_and_F000, wordXNN_toNat h]
  simp only [BitVec.toNat_ofNat]
  omega

theorem wordXNN_and_F00F {op : Nat} (h : op < 16) (x : Reg) (nn : Byte) :
    wordXNN op x nn &&& 0xF00F#16 = BitVec.ofNat 16 (op * 4096 + nn.toNat % 16) := by
  apply BitVec.eq_of_toNat_eq
  have := nn.isLt
  rw [toNat_and_F00F, wordXNN_toNat h]
  simp only [BitVec.toNat_ofNat]
  omega

theorem wordXNN_and_F0FF {op : Nat} (h : op < 16) (x : Reg) (nn : Byte) :
    wordXNN op x nn &&& 0xF0FF#16 = BitVec.ofNat 16 (op * 4096 + nn.toNat) := by
  apply BitVec.eq_of_toNat_eq
  have := nn.isLt
  rw [toNat_and_F0FF, wordXNN_toNat h]
  simp only [BitVec.toNat_ofNat]
  omega

theorem wordXYN_and_F000 {op : Nat} (h : op < 16) (x y : Reg) (n : Nat) :
    wordXYN op x y n &&& 0xF000#16 = BitVec.ofNat 16 (op * 4096) := by
  apply BitVec.eq_of_toNat_eq
  rw [toNat_and_F000, wordXYN_toNat h]
  simp only [BitVec.toNat_ofNat]
  omega

theorem wordXYN_and_F00F {op : Nat} (h : op < 16) (x y : Reg) (n : Nat) :
    wordXYN op x y n &&& 0xF00F#16 = BitVec.ofNat 16 (op * 4096 + n % 16) := by
  apply BitVec.eq_of_toNat_eq
  rw [toNat_and_F00F, wordXYN_toNat h]
  simp only [BitVec.toNat_ofNat]
  omega

end Sys2Proof
end

