-- ==== Sys2Proof/Laws/Memory.lean ====
section
/-! SUPPORT. Memory: a read after a write, the other addresses, and the canonical form, which every write keeps. -/

namespace Sys2Proof.Machine

/-- An address below the first that a canonical list may hold is not listed. -/
theorem readCell_of_lt {m : Memory} {lo a : Nat} (h : Memory.wfFrom lo m = true) (ha : a < lo) :
    readCell m a = unlistedByte a := by
  induction m generalizing lo with
  | nil => rfl
  | cons e m ih =>
    obtain ⟨k, c⟩ := e
    simp only [Memory.wfFrom, Bool.and_eq_true, decide_eq_true_eq] at h
    simp only [readCell, if_neg (show k ≠ a by omega)]
    exact ih h.2 (by omega)

/-- A canonical list from an address on is one from every lower address. -/
theorem wfFrom_mono {m : Memory} {lo lo' : Nat} (h : Memory.wfFrom lo m = true) (hle : lo' ≤ lo) :
    Memory.wfFrom lo' m = true := by
  cases m with
  | nil => rfl
  | cons e m =>
    obtain ⟨k, c⟩ := e
    simp only [Memory.wfFrom, Bool.and_eq_true, decide_eq_true_eq] at h ⊢
    exact ⟨⟨⟨by omega, h.1.1.2⟩, h.1.2⟩, h.2⟩

/-- A write keeps the canonical form. -/
theorem wfFrom_writeCell {m : Memory} {lo a : Nat} (b : Byte) (h : Memory.wfFrom lo m = true) (hlo : lo ≤ a)
    (ha : a < 4096) : Memory.wfFrom lo (writeCell m a b) = true := by
  induction m generalizing lo with
  | nil =>
    simp only [writeCell]
    split
    · rfl
    · simp [Memory.wfFrom, *]
  | cons e m ih =>
    obtain ⟨k, c⟩ := e
    have h' := h
    simp only [Memory.wfFrom, Bool.and_eq_true, decide_eq_true_eq] at h'
    obtain ⟨⟨⟨h1, h2⟩, h3⟩, h4⟩ := h'
    simp only [writeCell]
    split
    · simp only [Memory.wfFrom, Bool.and_eq_true, decide_eq_true_eq]
      exact ⟨⟨⟨h1, h2⟩, h3⟩, ih h4 (by omega)⟩
    · split
      · subst k
        split
        · exact wfFrom_mono h4 (by omega)
        · simp only [Memory.wfFrom, Bool.and_eq_true, decide_eq_true_eq]
          exact ⟨⟨⟨hlo, ha⟩, by assumption⟩, h4⟩
      · split
        · exact h
        · simp only [Memory.wfFrom, Bool.and_eq_true, decide_eq_true_eq]
          exact ⟨⟨⟨hlo, ha⟩, by assumption⟩, ⟨⟨by omega, h2⟩, h3⟩, h4⟩

/-- A read after a write to the same address gives the byte written. -/
theorem readCell_writeCell_same {m : Memory} {lo : Nat} (a : Nat) (b : Byte) (h : Memory.wfFrom lo m = true) :
    readCell (writeCell m a b) a = b := by
  induction m generalizing lo with
  | nil =>
    simp only [writeCell]
    split <;> simp_all [readCell]
  | cons e m ih =>
    obtain ⟨k, c⟩ := e
    simp only [Memory.wfFrom, Bool.and_eq_true, decide_eq_true_eq] at h
    simp only [writeCell]
    split
    · simp only [readCell, if_neg (show k ≠ a by omega)]
      exact ih h.2
    · split
      · subst k
        split
        · rw [readCell_of_lt h.2 (by omega)]
          exact Eq.symm ‹_›
        · simp [readCell]
      · split
        · simp only [readCell, if_neg (show k ≠ a by omega)]
          rw [readCell_of_lt h.2 (by omega)]
          exact Eq.symm ‹_›
        · simp [readCell]

/-- A write leaves every other address alone. -/
theorem readCell_writeCell_ne (m : Memory) {a c : Nat} (b : Byte) (h : c ≠ a) :
    readCell (writeCell m a b) c = readCell m c := by
  induction m with
  | nil =>
    simp only [writeCell]
    split <;> simp [readCell, h.symm]
  | cons e m ih =>
    obtain ⟨k, d⟩ := e
    simp only [writeCell]
    split
    · simp only [readCell, ih]
    · split
      · subst k
        split <;> simp [readCell, h.symm]
      · split <;> simp [readCell, h.symm]

theorem memRead_memWrite_same {s : State} (a : Nat) (b : Byte) (h : s.mem.wf = true) {c : Nat}
    (hc : c % 4096 = a % 4096) : memRead (memWrite a b s) c = b := by
  simp only [memRead, memWrite_mem, hc]
  exact readCell_writeCell_same _ b h

theorem memRead_memWrite_ne (s : State) {a c : Nat} (b : Byte) (hc : c % 4096 ≠ a % 4096) :
    memRead (memWrite a b s) c = memRead s c := by
  simp only [memRead, memWrite_mem]
  exact readCell_writeCell_ne _ b hc

/-- Every write of memory keeps its canonical form. -/
theorem memWrite_wf {s : State} (a : Nat) (b : Byte) (h : s.mem.wf = true) : (memWrite a b s).mem.wf = true :=
  wfFrom_writeCell b h (Nat.zero_le _) (Nat.mod_lt _ (by decide))

/-! ### Consecutive bytes -/

/-- Storing bytes changes memory and nothing else. -/
theorem storeBytes_eq (a : Nat) (bs : List Byte) (s : State) :
    storeBytes a bs s = { s with mem := (storeBytes a bs s).mem } := by
  induction bs generalizing a s with
  | nil => rfl
  | cons b bs ih =>
    simp only [storeBytes]
    rw [ih]
    rfl

theorem storeBytes_wf {s : State} (a : Nat) (bs : List Byte) (h : s.mem.wf = true) :
    (storeBytes a bs s).mem.wf = true := by
  induction bs generalizing a s with
  | nil => exact h
  | cons b bs ih => exact ih (a + 1) (memWrite_wf a b h)

/-- An address that is none of the stored ones reads as before. -/
theorem memRead_storeBytes_ne (a : Nat) (bs : List Byte) (s : State) {c : Nat}
    (hc : ∀ k < bs.length, c % 4096 ≠ (a + k) % 4096) : memRead (storeBytes a bs s) c = memRead s c := by
  induction bs generalizing a s with
  | nil => rfl
  | cons b bs ih =>
    simp only [storeBytes]
    rw [ih, memRead_memWrite_ne _ _ (by simpa using hc 0 (by simp))]
    intro k hk
    have := hc (k + 1) (by simpa using hk)
    rwa [show a + 1 + k = a + (k + 1) by omega]

/-- At most 4096 bytes do not overlap, so each stored byte reads back. -/
theorem memRead_storeBytes_same {s : State} (a : Nat) (bs : List Byte) (h : s.mem.wf = true)
    (hlen : bs.length ≤ 4096) {k : Nat} (hk : k < bs.length) {c : Nat} (hc : c % 4096 = (a + k) % 4096) :
    memRead (storeBytes a bs s) c = bs[k] := by
  induction bs generalizing a s k with
  | nil => simp at hk
  | cons b bs ih =>
    simp only [storeBytes, List.length_cons] at *
    cases k with
    | zero =>
      rw [memRead_storeBytes_ne _ _ _ (fun j hj => by omega)]
      exact memRead_memWrite_same a b h hc
    | succ k =>
      have hk' : k < bs.length := by simpa using hk
      rw [ih (s := memWrite a b s) (a + 1) (memWrite_wf a b h) (by omega) hk' (by omega)]
      rfl

end Sys2Proof.Machine
end

