-- ==== Sys2Proof/Laws/Ops.lean ====
section
/-! SUPPORT. What each shared operation over registers, the stack, `pc` and flags does. -/

namespace Sys2Proof.Machine

/-! ### Ops -/

@[simp] theorem wrapAddr_toNat (n : Nat) : (wrapAddr n).toNat = n % 4096 := by
  simp only [wrapAddr, BitVec.toNat_ofNat]
  omega

theorem wrapAddr_lt (n : Nat) : (wrapAddr n).toNat < 4096 := by
  rw [wrapAddr_toNat]
  omega

theorem readReg_writeReg (x y : Reg) (b : Byte) (s : State) :
    readReg (writeReg x b s) y = if y = x then b else readReg s y := by
  simp only [readReg, writeReg, Vector.getElem_set, Fin.ext_iff, eq_comm]

@[simp] theorem readReg_writeReg_same (x : Reg) (b : Byte) (s : State) : readReg (writeReg x b s) x = b := by
  simp [readReg_writeReg]

@[simp] theorem readReg_writeReg_ne {x y : Reg} (h : y ≠ x) (b : Byte) (s : State) :
    readReg (writeReg x b s) y = readReg s y := by
  simp [readReg_writeReg, h]

theorem readSlot_writeSlot (k j : Fin 16) (w : Word) (s : State) :
    readSlot (writeSlot k w s) j = if j = k then w else readSlot s j := by
  simp only [readSlot, writeSlot, Vector.getElem_set, Fin.ext_iff, eq_comm]

theorem readReg_loadThrough (x y : Reg) (s : State) :
    readReg (loadThrough x s) y = if y ≤ x then memRead s (indexed s y.val) else readReg s y := by
  simp [readReg, loadThrough]

@[simp] theorem nextSp_toNat (sp : Byte) : (nextSp sp).toNat = (sp.toNat + 1) % 16 := by
  simp only [nextSp, BitVec.toNat_ofNat]
  omega

@[simp] theorem prevSp_toNat (sp : Byte) : (prevSp sp).toNat = (sp.toNat + 15) % 16 := by
  simp only [prevSp, BitVec.toNat_ofNat]
  omega

theorem prevSp_nextSp_slot (sp : Byte) : slotOf (prevSp (nextSp sp)) = slotOf sp := by
  simp only [slotOf, Fin.mk.injEq, prevSp_toNat, nextSp_toNat]
  omega

theorem readSlot_pushPc (s : State) (j : Fin 16) :
    readSlot (pushPc s) j = if j = slotOf s.sp then s.pc else readSlot s j := by
  simp only [readSlot, pushPc_stack, Vector.getElem_set, Fin.ext_iff, eq_comm]

@[simp] theorem decayed_toNat (t : Byte) : (decayed t).toNat = t.toNat - 1 := by
  have := t.isLt
  simp only [decayed, BitVec.toNat_ofNat]
  omega

theorem boolByte_toNat (c : Bool) : (boolByte c).toNat = if c then 1 else 0 := by cases c <;> rfl

/-- All that the shared result-and-flag write does to a register. -/
theorem readReg_writeResultAndFlag (x y : Reg) (r : Byte) (f : Bool) (s : State) :
    readReg (writeResultAndFlag x r f s) y =
      if y = VF then
        if x = VF then (match Config.vfWriteOrder with | .flagLast => boolByte f | .resultLast => r) else boolByte f
      else if y = x then r else readReg s y := by
  unfold writeResultAndFlag writeResultAndFlagBy
  by_cases hx : x = VF
  · simp only [hx, if_true]
    cases Config.vfWriteOrder <;> simp only [readReg_writeReg] <;> split <;> simp_all
  · simp only [hx, if_false, readReg_writeReg]

/-- It writes registers and nothing else. -/
theorem writeResultAndFlag_eq (x : Reg) (r : Byte) (f : Bool) (s : State) :
    writeResultAndFlag x r f s = { s with v := (writeResultAndFlag x r f s).v } := by
  unfold writeResultAndFlag writeResultAndFlagBy
  split
  · cases Config.vfWriteOrder <;> rfl
  · rfl

/-! ### The random source -/

/-- A draw gives the bytes the host queued, in order, and after them the stream's (40_fetch R113). -/
theorem draw_of_queued {s : State} {b : Byte} {bs : List Byte} (h : s.source.queued = b :: bs) :
    drawnByte s = b ∧ (takeDraw s).source = ⟨bs, s.source.stream, s.source.drawn⟩ := by
  simp only [drawnByte, takeDraw, afterDraw, h, and_self]

theorem draw_of_empty {s : State} (h : s.source.queued = []) :
    drawnByte s = Config.randByte s.source.stream s.source.drawn ∧
      (takeDraw s).source = ⟨[], s.source.stream, s.source.drawn + 1⟩ := by
  simp only [drawnByte, takeDraw, afterDraw, h, and_self]

/-! ### Keys -/

/-- The lowest pressed key is pressed, and no lower key is (45_io R215). -/
theorem lowestKey_eq_some {s : State} {k : Key} :
    lowestKey s = some k ↔ keyDown s k = true ∧ ∀ j < k, keyDown s j = false := by
  simp only [lowestKey, List.find?_eq_some_iff_getElem, List.getElem_finRange]
  constructor
  · rintro ⟨hk, i, hi, rfl, h⟩
    exact ⟨hk, fun j hj => by simpa using h j.val hj⟩
  · rintro ⟨hk, h⟩
    exact ⟨hk, k.val, by simp, by simp, fun j hj => by simpa using h ⟨j, by omega⟩ hj⟩

theorem lowestKey_eq_none {s : State} : lowestKey s = none ↔ ∀ k, keyDown s k = false := by
  simp [lowestKey, List.find?_eq_none]

end Sys2Proof.Machine
end

