-- ==== Sys2Proof/Laws/Frame.lean ====
section
/-! SUPPORT. What each named operation leaves unchanged, said once with `SameOutside`. The meanings are built from these
operations, so the frame of an instruction is the frame of the operation it calls. -/

namespace Sys2Proof.Machine

/-- A frame may name more than it needs to. -/
theorem SameOutside.mono {p q : Item → Prop} {s t : State} (h : SameOutside p s t) (hpq : ∀ it, p it → q it) :
    SameOutside q s t := fun it hq => h it fun hp => hq (hpq it hp)

/-- Two changes one after the other. -/
theorem SameOutside.trans {p : Item → Prop} {s t u : State} (h : SameOutside p s t) (h' : SameOutside p t u) :
    SameOutside p s u := by
  intro it hp
  have first := h it hp
  have second := h' it hp
  cases it <;> exact Eq.trans second first

theorem setPc_frame (n : Nat) (s : State) : SameOutside (fun it => it = .pc) s (setPc n s) := by
  intro it h
  cases it <;> simp_all [Item.Same]

theorem advancePc_frame (s : State) : SameOutside (fun it => it = .pc) s (advancePc s) := setPc_frame _ s

theorem skipIf_frame (c : Bool) (s : State) : SameOutside (fun it => it = .pc) s (skipIf c s) := by
  cases c
  · intro it _
    cases it <;> rfl
  · exact advancePc_frame s

theorem setIndex_frame (n : Nat) (s : State) : SameOutside (fun it => it = .index) s (setIndex n s) := by
  intro it h
  cases it <;> simp_all [Item.Same]

theorem writeReg_frame (x : Reg) (b : Byte) (s : State) : SameOutside (fun it => it = .reg x) s (writeReg x b s) := by
  intro it h
  cases it
  case reg y => exact readReg_writeReg_ne (fun e => h (congrArg Item.reg e)) b s
  all_goals rfl

theorem writeResultAndFlag_frame (x : Reg) (r : Byte) (f : Bool) (s : State) :
    SameOutside (fun it => it = .reg x ∨ it = .reg VF) s (writeResultAndFlag x r f s) := by
  intro it h
  cases it
  case reg y =>
    rw [not_or] at h
    simp only [Item.Same, readReg_writeResultAndFlag]
    rw [if_neg fun e => h.2 (congrArg Item.reg e), if_neg fun e => h.1 (congrArg Item.reg e)]
  all_goals (rw [writeResultAndFlag_eq]; rfl)

theorem takeDraw_frame (s : State) : SameOutside (fun it => it = .source) s (takeDraw s) := by
  intro it h
  cases it <;> first | exact absurd rfl h | rfl

theorem storeBytes_frame (bs : List Byte) (s : State) :
    SameOutside (fun it => ∃ a, it = .byte a ∧ InRange s bs.length a) s (storeBytes (indexed s 0) bs s) := by
  intro it h
  cases it
  case byte a =>
    refine memRead_storeBytes_ne _ _ _ fun k hk hc => h ⟨a, rfl, k, hk, ?_⟩
    simpa [indexed] using hc
  all_goals (rw [storeBytes_eq]; rfl)

theorem loadThrough_frame (x : Reg) (s : State) :
    SameOutside (fun it => ∃ k : Reg, it = .reg k ∧ k ≤ x) s (loadThrough x s) := by
  intro it h
  cases it
  case reg y =>
    rw [Item.Same, readReg_loadThrough]
    exact if_neg fun hy => h ⟨y, rfl, hy⟩
  all_goals simp only [Item.Same, loadThrough_pc, loadThrough_index, loadThrough_sp, readSlot_loadThrough,
    loadThrough_delayTimer, loadThrough_soundTimer, memRead_loadThrough, loadThrough_video, keyDown_loadThrough,
    loadThrough_fault, loadThrough_source]

theorem takeInvalidOpcode_frame (a w : Word) (s : State) :
    SameOutside (fun it => it = .pc ∨ it = .fault) s (takeInvalidOpcode a w s) := by
  intro it h
  cases it <;> first | exact absurd (.inl rfl) h | exact absurd (.inr rfl) h | rfl

theorem decayTimers_frame (s : State) :
    SameOutside (fun it => it = .delayTimer ∨ it = .soundTimer) s (decayTimers s) := by
  intro it h
  cases it <;> simp_all [Item.Same, decayTimers]

theorem beginCall_frame (c : HostCall) (s : State) :
    SameOutside (fun it => (∃ k, it = .key k) ∨ it = .source) s (beginCall c s) := by
  intro it h
  cases it <;> first | exact absurd (.inl ⟨_, rfl⟩) h | exact absurd (.inr rfl) h | rfl

end Sys2Proof.Machine
end

