-- ==== Sys2Proof/Laws/PerInstr.lean ====
section
/-! SUPPORT. Statements made for each instruction. Family Canonical: the encoder's word of an instruction lies in that
instruction's own row of the opcode map (30_encoding R86, R91). -/

namespace Sys2Proof.Laws.Canonical

/-- The word of i has the fixed bits of the row with i's mnemonic. -/
def Statement (i : Instr) : Prop :=
  ∃ row ∈ opcodeMap, row.mnemonic = i.mnemonic ∧ encode i &&& row.mask = row.pattern

theorem cls : Statement (.cls) :=
  ⟨opcodeMap[0], List.getElem_mem (by decide), rfl, by decide⟩

theorem ret : Statement (.ret) :=
  ⟨opcodeMap[1], List.getElem_mem (by decide), rfl, by decide⟩

theorem jp (nnn : BitVec 12) : Statement (.jp nnn) :=
  ⟨opcodeMap[2], List.getElem_mem (by decide), rfl, wordA_and_F000 (by decide) nnn⟩

theorem call (nnn : BitVec 12) : Statement (.call nnn) :=
  ⟨opcodeMap[3], List.getElem_mem (by decide), rfl, wordA_and_F000 (by decide) nnn⟩

theorem seImm (x : Reg) (nn : Byte) : Statement (.seImm x nn) :=
  ⟨opcodeMap[4], List.getElem_mem (by decide), rfl, wordXNN_and_F000 (by decide) x nn⟩

theorem sneImm (x : Reg) (nn : Byte) : Statement (.sneImm x nn) :=
  ⟨opcodeMap[5], List.getElem_mem (by decide), rfl, wordXNN_and_F000 (by decide) x nn⟩

theorem seReg (x y : Reg) : Statement (.seReg x y) :=
  ⟨opcodeMap[6], List.getElem_mem (by decide), rfl, wordXYN_and_F000 (by decide) x y 0x0⟩

theorem ldImm (x : Reg) (nn : Byte) : Statement (.ldImm x nn) :=
  ⟨opcodeMap[7], List.getElem_mem (by decide), rfl, wordXNN_and_F000 (by decide) x nn⟩

theorem addImm (x : Reg) (nn : Byte) : Statement (.addImm x nn) :=
  ⟨opcodeMap[8], List.getElem_mem (by decide), rfl, wordXNN_and_F000 (by decide) x nn⟩

theorem ldReg (x y : Reg) : Statement (.ldReg x y) :=
  ⟨opcodeMap[9], List.getElem_mem (by decide), rfl, wordXYN_and_F00F (by decide) x y 0x0⟩

theorem orReg (x y : Reg) : Statement (.orReg x y) :=
  ⟨opcodeMap[10], List.getElem_mem (by decide), rfl, wordXYN_and_F00F (by decide) x y 0x1⟩

theorem andReg (x y : Reg) : Statement (.andReg x y) :=
  ⟨opcodeMap[11], List.getElem_mem (by decide), rfl, wordXYN_and_F00F (by decide) x y 0x2⟩

theorem xorReg (x y : Reg) : Statement (.xorReg x y) :=
  ⟨opcodeMap[12], List.getElem_mem (by decide), rfl, wordXYN_and_F00F (by decide) x y 0x3⟩

theorem addReg (x y : Reg) : Statement (.addReg x y) :=
  ⟨opcodeMap[13], List.getElem_mem (by decide), rfl, wordXYN_and_F00F (by decide) x y 0x4⟩

theorem sub (x y : Reg) : Statement (.sub x y) :=
  ⟨opcodeMap[14], List.getElem_mem (by decide), rfl, wordXYN_and_F00F (by decide) x y 0x5⟩

theorem shr (x y : Reg) : Statement (.shr x y) :=
  ⟨opcodeMap[15], List.getElem_mem (by decide), rfl, wordXYN_and_F00F (by decide) x y 0x6⟩

theorem subn (x y : Reg) : Statement (.subn x y) :=
  ⟨opcodeMap[16], List.getElem_mem (by decide), rfl, wordXYN_and_F00F (by decide) x y 0x7⟩

theorem shl (x y : Reg) : Statement (.shl x y) :=
  ⟨opcodeMap[17], List.getElem_mem (by decide), rfl, wordXYN_and_F00F (by decide) x y 0xE⟩

theorem sneReg (x y : Reg) : Statement (.sneReg x y) :=
  ⟨opcodeMap[18], List.getElem_mem (by decide), rfl, wordXYN_and_F000 (by decide) x y 0x0⟩

theorem ldI (nnn : BitVec 12) : Statement (.ldI nnn) :=
  ⟨opcodeMap[19], List.getElem_mem (by decide), rfl, wordA_and_F000 (by decide) nnn⟩

theorem jpV0 (nnn : BitVec 12) : Statement (.jpV0 nnn) :=
  ⟨opcodeMap[20], List.getElem_mem (by decide), rfl, wordA_and_F000 (by decide) nnn⟩

theorem rnd (x : Reg) (nn : Byte) : Statement (.rnd x nn) :=
  ⟨opcodeMap[21], List.getElem_mem (by decide), rfl, wordXNN_and_F000 (by decide) x nn⟩

theorem drw (x y : Reg) (n : Nat) : Statement (.drw x y n) :=
  ⟨opcodeMap[22], List.getElem_mem (by decide), rfl, wordXYN_and_F000 (by decide) x y n⟩

theorem skp (x : Reg) : Statement (.skp x) :=
  ⟨opcodeMap[23], List.getElem_mem (by decide), rfl, wordXNN_and_F00F (by decide) x 0x9E⟩

theorem sknp (x : Reg) : Statement (.sknp x) :=
  ⟨opcodeMap[24], List.getElem_mem (by decide), rfl, wordXNN_and_F00F (by decide) x 0xA1⟩

theorem ldVxDt (x : Reg) : Statement (.ldVxDt x) :=
  ⟨opcodeMap[25], List.getElem_mem (by decide), rfl, wordXNN_and_F0FF (by decide) x 0x07⟩

theorem ldVxK (x : Reg) : Statement (.ldVxK x) :=
  ⟨opcodeMap[26], List.getElem_mem (by decide), rfl, wordXNN_and_F0FF (by decide) x 0x0A⟩

theorem ldDtVx (x : Reg) : Statement (.ldDtVx x) :=
  ⟨opcodeMap[27], List.getElem_mem (by decide), rfl, wordXNN_and_F0FF (by decide) x 0x15⟩

theorem ldStVx (x : Reg) : Statement (.ldStVx x) :=
  ⟨opcodeMap[28], List.getElem_mem (by decide), rfl, wordXNN_and_F0FF (by decide) x 0x18⟩

theorem addI (x : Reg) : Statement (.addI x) :=
  ⟨opcodeMap[29], List.getElem_mem (by decide), rfl, wordXNN_and_F0FF (by decide) x 0x1E⟩

theorem ldF (x : Reg) : Statement (.ldF x) :=
  ⟨opcodeMap[30], List.getElem_mem (by decide), rfl, wordXNN_and_F0FF (by decide) x 0x29⟩

theorem ldB (x : Reg) : Statement (.ldB x) :=
  ⟨opcodeMap[31], List.getElem_mem (by decide), rfl, wordXNN_and_F0FF (by decide) x 0x33⟩

theorem storeRegs (x : Reg) : Statement (.storeRegs x) :=
  ⟨opcodeMap[32], List.getElem_mem (by decide), rfl, wordXNN_and_F0FF (by decide) x 0x55⟩

theorem loadRegs (x : Reg) : Statement (.loadRegs x) :=
  ⟨opcodeMap[33], List.getElem_mem (by decide), rfl, wordXNN_and_F0FF (by decide) x 0x65⟩

end Sys2Proof.Laws.Canonical
end

