-- ==== Sys2Proof/Laws/Step.lean ====
section
/-! SUPPORT. What a step and a batch of steps can do. -/

namespace Sys2Proof.Machine

/-- All that a step can do when it answers a next state: an instruction was fetched and its meaning ran on the state
with pc advanced. -/
theorem step_eq_next {s t : State} : step s = .next t ↔
    s.fault = none ∧ ∃ i, decodeWord (fetchWord s s.pc.toNat) = .ok i ∧ exec i (advancePc s) = .next t := by
  unfold step fetch
  cases s.fault with
  | some e => simp
  | none => cases decodeWord (fetchWord s s.pc.toNat) <;> simp

theorem step_of_decode {s : State} {i : Instr} (hf : s.fault = none)
    (hd : decodeWord (fetchWord s s.pc.toNat) = .ok i) : step s = exec i (advancePc s) := by
  simp [step, fetch, hf, hd]

theorem step_of_reject {s : State} {r : Reject} (hf : s.fault = none)
    (hd : decodeWord (fetchWord s s.pc.toNat) = .error r) :
    step s = .fault (.invalidOpcode s.pc (fetchWord s s.pc.toNat)) := by
  simp [step, fetch, hf, hd]

theorem step_of_marked {s : State} {e : InvalidOpcode} (hf : s.fault = some e) :
    step s = .fault (.noStepAfterFault e.addr e.word) := by
  simp [step, fetch, hf]

theorem runBatch_succ_next {n : Nat} {s t : State} (h : step s = .next t) : runBatch (n + 1) s = runBatch n t := by
  simp [runBatch, h]

theorem runBatch_succ_fault {n : Nat} {s : State} {f : Fault} (h : step s = .fault f) :
    runBatch (n + 1) s = .error f (leftBehind f s) := by
  simp [runBatch, h]

/-- A property that every step keeps holds after every batch that ends well. -/
theorem runBatch_ok_induction {P : State → Prop} (hstep : ∀ s t, P s → step s = .next t → P t) {n : Nat}
    {s t : State} (hs : P s) (h : runBatch n s = .ok t) : P t := by
  induction n generalizing s with
  | zero =>
    cases h
    exact hs
  | succ n ih =>
    simp only [runBatch] at h
    split at h
    · exact ih (hstep _ _ hs ‹_›) h
    · cases h
    · cases h

/-- n steps of the host's machine and a batch of n end well alike. -/
theorem core_run_eq_next {n : Nat} {s t : State} : core.run n s = .next t ↔ runBatch n s = .ok t := by
  induction n generalizing s with
  | zero =>
    show Host.Outcome.next s = .next t ↔ CallResult.ok s = .ok t
    simp
  | succ n ih =>
    simp only [runBatch, Host.Core.run]
    cases h : step s with
    | next u =>
      have h' : core.step s = .next u := h
      simp only [h']
      exact ih
    | fault f =>
      have h' : core.step s = .fault f := h
      simp [h']
    | refused r =>
      have h' : core.step s = .refused r := h
      simp [h']

end Sys2Proof.Machine
end

