-- ==== Sys2Proof/Tests/Slice0.lean ====
section
/-! SUPPORT. The model's own tests. Expected results come from spec/95_test_vectors.md (its ids S-, D-, C-, A-, M-, V-,
K- and T- stand in the comments) and from the examples of the rules; each runs one step or one call on a small state.
At the end stand the witnesses: states that meet the hypotheses of the statements in Certificates/Slice0. -/

namespace Sys2Proof.Tests

open Sys2Proof Sys2Proof.Machine

/-- The state after reset with some registers set. -/
def withRegs (l : List (Reg × Byte)) : State := l.foldl (fun s p => writeReg p.1 p.2 s) State.reset

/-- The state after reset with bytes stored from an address on. -/
def withBytes (a : Nat) (l : List Byte) : State := storeBytes a l State.reset

/-- One key pressed, with `withKeys` on a state. -/
def withKeys (l : List Key) (s : State) : State := { s with keypad := l.foldl (fun v k => v.set k.val true) s.keypad }

/-- One step of the word w placed at pc. -/
def stepWord (w : Nat) (s : State) : Host.Outcome State Fault Refusal := step (s.withFetchWord 16 w)

/-- The outcome is a next state of which p holds. -/
def gives (o : Host.Outcome State Fault Refusal) (p : State → Bool) : Bool :=
  match o with
  | .next t => p t
  | .fault _ => false
  | .refused _ => false

/-- The outcome is this fault. -/
def faults (o : Host.Outcome State Fault Refusal) (f : Fault) : Bool :=
  match o with
  | .next _ => false
  | .fault g => g == f
  | .refused _ => false

/-! ### Well-formedness -/

/-- N is 0 to 15 (30_encoding R72): 16 rows are no instruction. -/
theorem test_wf_refuses_sixteen_rows : (Instr.drw 0 1 16).wf = false := by decide
theorem test_wf_admits_fifteen_rows : (Instr.drw 0 1 15).wf = true := by decide

/-! ### Decoding: words written from 30_encoding R71, R86 and R91 -/

theorem test_decode_group0 : decodeWord 0x00E0 = .ok .cls ∧ decodeWord 0x00EE = .ok .ret := by decide
theorem test_decode_jp : decodeWord 0x1ABC = .ok (.jp 0xABC) := by decide
theorem test_decode_call : decodeWord 0x2300 = .ok (.call 0x300) := by decide
theorem test_decode_seImm : decodeWord 0x3342 = .ok (.seImm 3 0x42) := by decide
theorem test_decode_sneImm : decodeWord 0x4300 = .ok (.sneImm 3 0x00) := by decide
theorem test_decode_seReg : decodeWord 0x5120 = .ok (.seReg 1 2) := by decide
theorem test_decode_ldImm : decodeWord 0x6A7F = .ok (.ldImm 10 0x7F) := by decide
theorem test_decode_addImm : decodeWord 0x7020 = .ok (.addImm 0 0x20) := by decide
theorem test_decode_ldReg : decodeWord 0x8120 = .ok (.ldReg 1 2) := by decide
theorem test_decode_orReg : decodeWord 0x8121 = .ok (.orReg 1 2) := by decide
theorem test_decode_andReg : decodeWord 0x8122 = .ok (.andReg 1 2) := by decide
theorem test_decode_xorReg : decodeWord 0x8123 = .ok (.xorReg 1 2) := by decide
theorem test_decode_addReg : decodeWord 0x8124 = .ok (.addReg 1 2) := by decide
theorem test_decode_sub : decodeWord 0x8125 = .ok (.sub 1 2) := by decide
theorem test_decode_shr : decodeWord 0x84F6 = .ok (.shr 4 15) := by decide
theorem test_decode_subn : decodeWord 0x8127 = .ok (.subn 1 2) := by decide
theorem test_decode_shl : decodeWord 0x840E = .ok (.shl 4 0) := by decide
theorem test_decode_sneReg : decodeWord 0x9120 = .ok (.sneReg 1 2) := by decide
theorem test_decode_ldI : decodeWord 0xA300 = .ok (.ldI 0x300) := by decide
theorem test_decode_jpV0 : decodeWord 0xBFFF = .ok (.jpV0 0xFFF) := by decide
theorem test_decode_rnd : decodeWord 0xC30F = .ok (.rnd 3 0x0F) := by decide
theorem test_decode_drw : decodeWord 0xD012 = .ok (.drw 0 1 2) := by decide
theorem test_decode_skp : decodeWord 0xE29E = .ok (.skp 2) := by decide
theorem test_decode_sknp : decodeWord 0xE2A1 = .ok (.sknp 2) := by decide
theorem test_decode_ldVxDt : decodeWord 0xF507 = .ok (.ldVxDt 5) := by decide
theorem test_decode_ldVxK : decodeWord 0xF30A = .ok (.ldVxK 3) := by decide
theorem test_decode_ldDtVx : decodeWord 0xF115 = .ok (.ldDtVx 1) := by decide
theorem test_decode_ldStVx : decodeWord 0xF118 = .ok (.ldStVx 1) := by decide
theorem test_decode_addI : decodeWord 0xF21E = .ok (.addI 2) := by decide
theorem test_decode_ldF : decodeWord 0xF129 = .ok (.ldF 1) := by decide
theorem test_decode_ldB : decodeWord 0xF033 = .ok (.ldB 0) := by decide
theorem test_decode_storeRegs : decodeWord 0xF255 = .ok (.storeRegs 2) := by decide
theorem test_decode_loadRegs : decodeWord 0xF265 = .ok (.loadRegs 2) := by decide

/-- The bits that decoding ignores (30_encoding R79, R80, R81; D-3, D-4, D-5, D-16 to D-19). -/
theorem test_decode_ignored_bits :
    decodeWord 0x0000 = .ok .cls ∧ decodeWord 0x0FF0 = .ok .cls ∧ decodeWord 0x012E = .ok .ret ∧
    decodeWord 0x5121 = .ok (.seReg 1 2) ∧ decodeWord 0x912F = .ok (.sneReg 1 2) ∧
    decodeWord 0xE1AE = .ok (.skp 1) ∧ decodeWord 0xE1F1 = .ok (.sknp 1) := by decide

/-- Illegal words, each refused by the name of its slot (D-6 to D-15). -/
theorem test_decode_illegal :
    decodeWord 0x0001 = .error (.group0Slot 1) ∧ decodeWord 0x800F = .error (.group8Slot 15) ∧
    decodeWord 0xE09F = .error (.groupESlot 15) ∧ decodeWord 0xF164 = .error (.groupFSlot 0x64) ∧
    decodeWord 0xF066 = .error (.groupFNoSlot 0x66) ∧ decodeWord 0xF0FF = .error (.groupFNoSlot 0xFF) := by decide

theorem test_decode_bytes : decode [0x1A, 0xBC, 0x77] = .ok (.jp 0xABC, [0x77]) := by decide
theorem test_decode_truncated : decode [0x1A] = .error .truncated ∧ decode [] = .error .truncated := by decide

/-- Canonical words (30_encoding R91). -/
theorem test_encode_canonical :
    encode .cls = 0x00E0 ∧ encode .ret = 0x00EE ∧ encode (.skp 2) = 0xE29E ∧ encode (.sknp 2) = 0xE2A1 ∧
    encode (.seReg 1 2) = 0x5120 ∧ encode (.drw 0 1 2) = 0xD012 := by decide

/-- The spellings of 30_encoding R91. -/
theorem test_spelling :
    (Instr.drw 0 1 2).spelling = "DRW V0, V1, 0x2" ∧ (Instr.shr 4 0).spelling = "SHR V4" ∧
    (Instr.ldImm 10 0x7F).spelling = "LD VA, 0x7F" ∧ (Instr.loadRegs 15).spelling = "LD VF, [I]" := by decide

theorem test_table_word : decodeTableWord 16 0xD012 = some (.drw 0 1 2) := by decide

/-! ### Fetch and faults -/

/-- D-1: pc = 0xFFF fetches 0xFFF and 0x000. -/
theorem test_fetch_wraps : fetchWord (memWrite 0 0x07 (withBytes 0xFFF [0x61])) 0xFFF = 0x6107 := by
  have lo : memRead (memWrite 0 0x07 (withBytes 0xFFF [0x61])) (0xFFF + 1) = 0x07 :=
    memRead_memWrite_same 0 _ (by decide) rfl
  have hi : memRead (memWrite 0 0x07 (withBytes 0xFFF [0x61])) 0xFFF = 0x61 :=
    (memRead_memWrite_ne _ _ (by decide)).trans (by decide)
  rw [fetchWord, lo, hi]
  decide

/-- S9: pc = 0xFFE, 6042. -/
theorem test_pc_wraps : gives (stepWord 0x6042 { State.reset with pc := 0xFFE })
    (fun t => readReg t 0 == 0x42 && t.pc == 0) = true := by decide

/-- D-2: an odd pc is legal. -/
theorem test_odd_pc : gives (stepWord 0x6209 { State.reset with pc := 0x201 })
    (fun t => readReg t 2 == 9 && t.pc == 0x203) = true := by decide

/-- D-8: InvalidOpcode carries the address and the word. -/
theorem test_invalid_opcode : faults (stepWord 0x8008 State.reset) (.invalidOpcode 0x200 0x8008) = true := by decide

/-- R232: no step from a marked state. -/
theorem test_no_step_after_fault :
    faults (step (takeInvalidOpcode 0x200 0x8008 State.reset)) (.noStepAfterFault 0x200 0x8008) = true := by decide

/-! ### Control flow -/

/-- C-5: underflow wraps. -/
theorem test_ret_wraps : gives (stepWord 0x00EE (writeSlot 15 0x302 State.reset))
    (fun t => t.sp == 15 && t.pc == 0x302) = true := by decide
/-- S1. -/
theorem test_jp : gives (stepWord 0x1ABC State.reset) (fun t => t.pc == 0xABC) = true := by decide
/-- C-3. -/
theorem test_call : gives (stepWord 0x2ABC State.reset)
    (fun t => readSlot t 0 == 0x202 && t.sp == 1 && t.pc == 0xABC) = true := by decide
/-- C-4: the ring wraps. -/
theorem test_call_wraps : gives (stepWord 0x2400 { State.reset with sp := 15, pc := 0x300 })
    (fun t => readSlot t 15 == 0x302 && t.sp == 0 && t.pc == 0x400) = true := by decide
/-- C-8, C-9. -/
theorem test_seImm_skips : gives (stepWord 0x3412 (withRegs [(4, 0x12)])) (fun t => t.pc == 0x204) = true := by decide
theorem test_seImm_stays : gives (stepWord 0x3412 (withRegs [(4, 0x13)])) (fun t => t.pc == 0x202) = true := by decide
/-- C-10. -/
theorem test_sneImm_skips : gives (stepWord 0x4412 (withRegs [(4, 0x13)])) (fun t => t.pc == 0x204) = true := by decide
/-- C-11, and C-14's wrap. -/
theorem test_seReg_skips : gives (stepWord 0x5450 (withRegs [(4, 0x80), (5, 0x80)])) (fun t => t.pc == 0x204) = true := by
  decide
theorem test_skip_wraps : gives (stepWord 0x3000 { State.reset with pc := 0xFFC }) (fun t => t.pc == 0) = true := by decide
/-- C-12. -/
theorem test_sneReg_skips : gives (stepWord 0x9450 (withRegs [(4, 0x80), (5, 0x81)])) (fun t => t.pc == 0x204) = true := by
  decide
/-- C-16, C-18: V0 is added, whatever bits [11:8] are, modulo 4096. -/
theorem test_jpV0_wraps : gives (stepWord 0xBFFF (withRegs [(0, 0xFF)])) (fun t => t.pc == 0x0FE) = true := by decide
theorem test_jpV0_base : gives (stepWord 0xB300 (withRegs [(1, 0xFF), (0, 0x02)])) (fun t => t.pc == 0x302) = true := by
  decide

/-! ### ALU: V1 = x, V2 = y, VF = 0x55 -/

/-- The start state of the ALU vectors. -/
def alu (x y : Byte) : State := withRegs [(1, x), (2, y), (15, 0x55)]

/-- V1 and VF after a step. -/
def v1vf (w : Nat) (s : State) (a f : Byte) : Bool := gives (stepWord w s) fun t => readReg t 1 == a && readReg t 15 == f

/-- A-1. -/
theorem test_ldImm : v1vf 0x61AB (alu 0 0) 0xAB 0x55 = true := by decide
/-- A-2, A-33. -/
theorem test_addImm : v1vf 0x7101 (alu 0xFF 0) 0x00 0x55 = true := by decide
theorem test_addImm_vf : gives (stepWord 0x7F01 (withRegs [(15, 0x7F)])) (fun t => readReg t 15 == 0x80) = true := by decide
/-- A-4. -/
theorem test_ldReg : v1vf 0x8120 (alu 0x12 0x34) 0x34 0x55 = true := by decide
/-- A-5, A-6, A-7. -/
theorem test_orReg : v1vf 0x8121 (alu 0xF0 0x0F) 0xFF 0x55 = true := by decide
theorem test_andReg : v1vf 0x8122 (alu 0xF0 0x3C) 0x30 0x55 = true := by decide
theorem test_xorReg : v1vf 0x8123 (alu 0xF0 0x3C) 0xCC 0x55 = true := by decide
/-- A-9; A-28: VF is read as an operand before it is written. -/
theorem test_addReg : v1vf 0x8124 (alu 0x80 0x80) 0x00 0x01 = true := by decide
theorem test_addReg_reads_vf : v1vf 0x81F4 (withRegs [(1, 0x10), (15, 0x01)]) 0x11 0x00 = true := by decide
/-- A-13 (strict), A-14. -/
theorem test_sub_equal : v1vf 0x8125 (alu 0x05 0x05) 0x00 0x00 = true := by decide
theorem test_sub_borrow : v1vf 0x8125 (alu 0x00 0x01) 0xFF 0x00 = true := by decide
/-- A-20 (Y ignored), A-19. -/
theorem test_shr_ignores_y : v1vf 0x8126 (alu 0x02 0x0F) 0x01 0x00 = true := by decide
theorem test_shr_out : v1vf 0x8126 (alu 0xFF 0) 0x7F 0x01 = true := by decide
/-- A-21, A-22. -/
theorem test_subn : v1vf 0x8127 (alu 0x01 0x02) 0x01 0x01 = true := by decide
theorem test_subn_borrow : v1vf 0x8127 (alu 0x02 0x01) 0xFF 0x00 = true := by decide
/-- A-27 (Y ignored), A-26. -/
theorem test_shl_ignores_y : v1vf 0x812E (alu 0x40 0x01) 0x80 0x00 = true := by decide
theorem test_shl_out : v1vf 0x812E (alu 0xFF 0) 0xFE 0x01 = true := by decide

/-- A-30, A-32: X = 15 under each value of VF_WRITE_ORDER (the shared write, since the machine's own value is open). -/
theorem test_vf_write_order :
    readReg (writeResultAndFlagBy .flagLast 15 0x00 true State.reset) 15 = 0x01 ∧
    readReg (writeResultAndFlagBy .resultLast 15 0x00 true State.reset) 15 = 0x00 ∧
    readReg (writeResultAndFlagBy .flagLast 15 0x01 false State.reset) 15 = 0x00 ∧
    readReg (writeResultAndFlagBy .resultLast 15 0x01 false State.reset) 15 = 0x01 := by decide

/-! ### Index and memory -/

/-- M-1. -/
theorem test_ldI : gives (stepWord 0xAFFF State.reset) (fun t => t.index == 0xFFF) = true := by decide
/-- M-2, M-3. -/
theorem test_addI_wraps : gives (stepWord 0xF11E { withRegs [(1, 1), (15, 0x55)] with index := 0xFFF })
    (fun t => t.index == 0 && readReg t 15 == 0x55) = true := by decide
theorem test_addI : gives (stepWord 0xF11E { withRegs [(1, 0xFF)] with index := 0xF80 }) (fun t => t.index == 0x07F) = true := by
  decide
/-- M-4, M-6: FONT_BASE + 5 times the whole register. -/
theorem test_ldF : execLdF 1 (withRegs [(1, 0x0A)]) = .next (setIndex (fontBase + 0x032) (withRegs [(1, 0x0A)])) := rfl
theorem test_ldF_unmasked : execLdF 1 (withRegs [(1, 0x10)]) = .next (setIndex (fontBase + 0x050) (withRegs [(1, 0x10)])) :=
  rfl
/-- M-8, M-10. -/
theorem test_ldB : gives (stepWord 0xF133 { withRegs [(1, 0xFE)] with index := 0x300 })
    (fun t => memRead t 0x300 == 2 && memRead t 0x301 == 5 && memRead t 0x302 == 4 && t.index == 0x300) = true := by decide
theorem test_ldB_255 : gives (stepWord 0xF133 { withRegs [(1, 0xFF)] with index := 0x300 })
    (fun t => memRead t 0x300 == 2 && memRead t 0x301 == 5 && memRead t 0x302 == 5) = true := by decide
/-- M-15, M-13: the range is inclusive. -/
theorem test_storeRegs : gives (stepWord 0xF355 { withRegs [(0, 0x10), (1, 0x20), (2, 0x30), (3, 0x40), (4, 0x50)] with index := 0x300 })
    (fun t => memRead t 0x300 == 0x10 && memRead t 0x303 == 0x40 && memRead t 0x304 == 0 && t.index == 0x300) = true := by
  decide
theorem test_storeRegs_one : gives (stepWord 0xF055 { withRegs [(0, 0xAA), (1, 0xBB)] with index := 0x300 })
    (fun t => memRead t 0x300 == 0xAA && memRead t 0x301 == 0) = true := by decide
/-- M-19, M-18: the range is inclusive, VF among it. -/
theorem test_loadRegs : gives (stepWord 0xF265 { writeReg 3 0x44 (withBytes 0x300 [1, 2, 3, 9]) with index := 0x300 })
    (fun t => readReg t 0 == 1 && readReg t 2 == 3 && readReg t 3 == 0x44 && t.index == 0x300) = true := by decide
theorem test_loadRegs_vf : gives (stepWord 0xFF65 { withBytes 0x30F [0xFF] with index := 0x300 })
    (fun t => readReg t 15 == 0xFF && readReg t 14 == 0) = true := by decide

/-! ### Display -/

/-- The start state of the display vectors: sprite bytes at 0x300, I there, V0 and V1. -/
def canvasAt (l : List Byte) (x y : Byte) : State :=
  writeReg 0 x (writeReg 1 y { withBytes 0x300 l with index := 0x300 })

/-- V-14. -/
theorem test_cls : gives (stepWord 0x00E0 { withRegs [(15, 1)] with video := Vector.replicate 32 7 })
    (fun t => t.video[0] == 0 && t.video[31] == 0 && readReg t 15 == 1) = true := by decide
/-- V-7: wraps at both edges. -/
theorem test_drw_wraps : gives (stepWord 0xD012 (canvasAt [0xFF, 0x81] 0x3C 0x1F))
    (fun t => t.video[31] == 0xF00000000000000F && t.video[0] == 0x1000000000000008 && readReg t 15 == 0) = true := by decide
/-- V-9: a collision; V-12: the anchor is VF's old value. -/
theorem test_drw_collides :
    gives (stepWord 0xD011 { canvasAt [0x0F] 0 0 with video := (Vector.replicate 32 0).set 0 0xFF00000000000000 })
      (fun t => t.video[0] == 0xF000000000000000 && readReg t 15 == 1) = true := by decide
theorem test_drw_anchor_vf : gives (stepWord 0xDF11 (writeReg 15 0x3C (canvasAt [0xFF] 0 0)))
    (fun t => t.video[0] == 0xF00000000000000F && readReg t 15 == 0) = true := by decide
/-- V-3, V-5: placement by rotation. -/
theorem test_spriteRow : spriteRow 0xC0 63 = 0x8000000000000001 ∧ spriteRow 0x81 60 = 0x1000000000000008 := by decide

/-! ### Random, keypad and timers -/

/-- The state after reset with bytes injected into the random source. -/
def withDraws (l : List Byte) : State := setSource (some ⟨l, 0, 0⟩) State.reset

/-- The example of 45_io R210: draw 0xA5, C30F. -/
theorem test_rnd : gives (stepWord 0xC30F (withDraws [0xA5])) (fun t => readReg t 3 == 0x05) = true := by decide
/-- K-13: NN = 0 gives 0 and still takes one draw. -/
theorem test_rnd_zero : gives (stepWord 0xC100 (withDraws [0xFF, 0x77]))
    (fun t => readReg t 1 == 0 && t.source == ⟨[0x77], 0, 0⟩) = true := by decide
/-- With nothing queued the draw is the stream's. -/
theorem test_rnd_free : execRnd 1 0xFF { State.reset with source := ⟨[], 3, 5⟩ } =
    .next (writeReg 1 (Config.randByte 3 5 &&& 0xFF) { State.reset with source := ⟨[], 3, 6⟩ }) := rfl
/-- K-1, K-2. -/
theorem test_skp_wraps : gives (stepWord 0xE19E (withKeys [3] (withRegs [(1, 0x13)]))) (fun t => t.pc == 0x204) = true := by
  decide
theorem test_skp_stays : gives (stepWord 0xE19E (withRegs [(1, 3)])) (fun t => t.pc == 0x202) = true := by decide
/-- K-3, K-4. -/
theorem test_sknp_stays : gives (stepWord 0xE1A1 (withKeys [3] (withRegs [(1, 3)]))) (fun t => t.pc == 0x202) = true := by
  decide
theorem test_sknp_skips : gives (stepWord 0xE1A1 (withRegs [(1, 3)])) (fun t => t.pc == 0x204) = true := by decide
/-- K-9. -/
theorem test_ldVxDt : gives (stepWord 0xF307 { State.reset with delayTimer := 0x2A }) (fun t => readReg t 3 == 0x2A) = true := by
  decide
/-- K-5, K-7. -/
theorem test_ldVxK_lowest : gives (stepWord 0xF20A (withKeys [9, 3] State.reset))
    (fun t => readReg t 2 == 3 && t.pc == 0x202) = true := by decide
theorem test_ldVxK_waits : gives (stepWord 0xF20A { State.reset with pc := 0xFFE }) (fun t => t.pc == 0xFFE) = true := by
  decide
/-- K-10, K-11. -/
theorem test_ldDtVx : gives (stepWord 0xF315 (withRegs [(3, 9)])) (fun t => t.delayTimer == 9) = true := by decide
theorem test_ldStVx : gives (stepWord 0xF318 (withRegs [(3, 9)])) (fun t => t.soundTimer == 9) = true := by decide

/-! ### The cycle runner and the Initializer -/

/-- A call ends well in a state of which p holds. -/
def callGives (r : CallResult) (p : State → Bool) : Bool :=
  match r with
  | .ok t => p t
  | .error _ _ => false
  | .refused _ => false

/-- A call ends in this fault, in a state of which p holds. -/
def callStops (r : CallResult) (f : Fault) (p : State → Bool) : Bool :=
  match r with
  | .ok _ => false
  | .error g t => g == f && p t
  | .refused _ => false

/-- T-1. -/
theorem test_call_of_no_steps : callGives (runCycle 0 { State.reset with soundTimer := 3 })
    (fun t => t.delayTimer == 0 && t.soundTimer == 2 && t.pc == 0x200) = true := by decide
/-- T-2: F118 at 0x200, 1202 at 0x202. -/
theorem test_call_decays_after_steps :
    callGives (runCycle 5 (writeReg 1 1 (withBytes 0x200 [0xF1, 0x18, 0x12, 0x02]))) (fun t => t.soundTimer == 0) = true := by
  decide
/-- R272: the host sees no tone for an ST of 1. -/
theorem test_sound_cue : callGives (runCycle 0 { State.reset with soundTimer := 1 }) (fun t => !soundCue t) = true ∧
    callGives (runCycle 0 { State.reset with soundTimer := 2 }) soundCue = true := by decide
theorem test_error_code : errorCode (.invalidOpcode 0x200 0x8008) = some 0 := by decide
/-- T-5. -/
theorem test_call_ends_in_fault :
    callStops (runCycle 2 { withBytes 0x200 [0x80, 0x08] with delayTimer := 4, soundTimer := 1 })
      (.invalidOpcode 0x200 0x8008)
      (fun t => t.delayTimer == 4 && t.soundTimer == 1 && t.pc == 0x202 && t.fault == some ⟨0x200, 0x8008⟩) = true := by decide

/-- 93_implementation_defined section 3: glyph A and glyph F. -/
theorem test_standard_glyphs :
    Config.standardGlyphs[50] = 0xF0 ∧ Config.standardGlyphs[51] = 0x90 ∧ Config.standardGlyphs[79] = 0x80 := by decide

/-! ### Witnesses

One for each statement of Certificates/Slice0 that has hypotheses: a state and operands that meet them, at a boundary
value for each clause. -/

/-- An illegal word at 0x200. -/
def illegalAt200 : State := withBytes 0x200 [0x80, 0x08]

/-- The program 1200 at 0x200, which jumps to itself. -/
def parkedAt200 : State := { withBytes 0x200 [0x12, 0x00] with delayTimer := 1, soundTimer := 3 }

/-- Row 0 lit in its first eight columns, and a sprite of fifteen rows at I that meets four of them. -/
def litCanvas : State :=
  { canvasAt [0x0F, 1, 2, 3, 4, 5, 6, 7, 8, 9, 10, 11, 12, 13, 14] 0 0 with
    video := (Vector.replicate 32 0).set 0 0xFF00000000000000 }

/-- A call of one step ends in the error of that step. -/
theorem call_of_a_faulting_step {s : State} {f : Fault} (h : step s = .fault f) :
    ∃ g t, runCycle 1 s = .error g t := ⟨f, leftBehind f s, by rw [runCycle, runBatch_succ_fault h]⟩

theorem reset_legal : State.reset.Legal := ⟨by decide, by decide, by decide, by decide, by decide⟩

theorem witness_DecodeOfEncodeGivesTheInstruction :
    (Instr.drw 15 15 15).wf = true ∧ encode (.drw 15 15 15) = 0xDFFF ∧ Instr.cls.wf = true := by decide

/-- The boundary words of each clause, both sides. -/
theorem witness_IllegalWordsAreThoseListed :
    (∃ r, decodeWord 0x0001 = .error r) ∧ (∃ r, decodeWord 0x0FFF = .error r) ∧
    (∃ r, decodeWord 0x8008 = .error r) ∧ (∃ r, decodeWord 0x8FFF = .error r) ∧
    (∃ r, decodeWord 0xE000 = .error r) ∧ (∃ r, decodeWord 0xEFFF = .error r) ∧
    (∃ r, decodeWord 0xF000 = .error r) ∧ (∃ r, decodeWord 0xFFFF = .error r) ∧
    decodeWord 0x800E = .ok (.shl 0 0) ∧ decodeWord 0x7FFF = .ok (.addImm 15 0xFF) ∧
    decodeWord 0xDFFF = .ok (.drw 15 15 15) :=
  ⟨⟨_, rfl⟩, ⟨_, rfl⟩, ⟨_, rfl⟩, ⟨_, rfl⟩, ⟨_, rfl⟩, ⟨_, rfl⟩, ⟨_, rfl⟩, ⟨_, rfl⟩, rfl, rfl, rfl⟩

theorem witness_RoutingReadsOnlyTheWord :
    (State.reset.fault = none ∧ fetchWord State.reset State.reset.pc.toNat = 0x0000 ∧ decodeWord 0x0000 = .ok .cls) ∧
    (illegalAt200.fault = none ∧ fetchWord illegalAt200 illegalAt200.pc.toNat = 0x8008 ∧
      decodeWord 0x8008 = .error (.group8Slot 8)) := by decide

theorem witness_AddressesWrapModulo4096 : 4095 % 4096 = 8191 % 4096 ∧ 0 % 4096 = 4096 % 4096 := by decide

theorem witness_ReadAfterWrite :
    State.reset.mem.wf = true ∧ memRead (memWrite 0xFFF 7 State.reset) 0x1FFF = 7 ∧
    memRead (memWrite 0xFFF 7 State.reset) 0xFFE = 0 := by decide

theorem witness_StepRunsTheDecodedInstruction :
    State.reset.fault = none ∧ decodeWord (fetchWord State.reset State.reset.pc.toNat) = .ok .cls := by decide

theorem witness_IllegalWordsAndFaultedStatesStop :
    (illegalAt200.fault = none ∧
      decodeWord (fetchWord illegalAt200 illegalAt200.pc.toNat) = .error (.group8Slot 8)) ∧
    (takeInvalidOpcode 0x200 0x8008 illegalAt200).fault = some ⟨0x200, 0x8008⟩ := by decide

theorem witness_StepHasTwoOutcomesAndNoInstructionFails :
    State.reset.fault = none ∧ illegalAt200.fault = none ∧ ∀ k : Key, keyDown State.reset k = false := by decide

theorem witness_InstructionsWriteOnlyWhatTheirRuleNames : ∃ t, exec (.ldImm 15 1) State.reset = .next t := ⟨_, rfl⟩

theorem witness_StepKeepsLegal : State.reset.Legal ∧ ∃ t, step State.reset = .next t :=
  ⟨reset_legal, _, step_of_decode (i := .cls) rfl (by decide)⟩

theorem witness_RunCycleKeepsLegal :
    State.reset.Legal ∧ (∃ t, runCycle 0 State.reset = .ok t) ∧
    illegalAt200.Legal ∧ ∃ f t, runCycle 1 illegalAt200 = .error f t :=
  ⟨reset_legal, ⟨_, rfl⟩, ⟨by decide, by decide, by decide, by decide, by decide⟩,
    call_of_a_faulting_step (step_of_reject (r := .group8Slot 8) (by decide) (by decide))⟩

theorem witness_OnlyDisplayInstructionsChangeVideo :
    (∃ t, exec .cls litCanvas = .next t ∧ t.video ≠ litCanvas.video) ∧
    ∃ t, exec (.drw 0 1 15) litCanvas = .next t ∧ t.video ≠ litCanvas.video :=
  ⟨⟨_, rfl, by decide⟩, _, rfl, by decide⟩

theorem witness_OnlyStoresChangeMemory :
    (∃ t, exec (.ldB 1) { withRegs [(1, 0xFF)] with index := 0x300 } = .next t ∧ t.mem ≠ []) ∧
    ∃ t, exec (.storeRegs 1) { withRegs [(1, 0xFF)] with index := 0x300 } = .next t ∧ t.mem ≠ [] :=
  ⟨⟨_, rfl, by decide⟩, _, rfl, by decide⟩

theorem witness_FlagRegisterHasItsWriters :
    (∃ t, exec (.addReg 1 2) (alu 0x80 0x80) = .next t ∧ readReg t VF ≠ readReg (alu 0x80 0x80) VF) ∧
    (∃ t, exec (.ldImm 15 0) (alu 0 0) = .next t ∧ readReg t VF ≠ readReg (alu 0 0) VF) ∧
    WritesFlag (.addReg 1 2) ∧ WritesFlag (.addReg 15 15) ∧ NamesVF (.ldImm 15 0) :=
  ⟨⟨_, rfl, by decide⟩, ⟨_, rfl, by decide⟩, trivial, trivial, rfl⟩

theorem witness_TimersChangeOnlyByTheirLoads :
    (∃ t, exec (.ldDtVx 1) (alu 9 0) = .next t ∧ t.delayTimer ≠ (alu 9 0).delayTimer) ∧
    ∃ t, exec (.ldStVx 1) (alu 9 0) = .next t ∧ t.soundTimer ≠ (alu 9 0).soundTimer :=
  ⟨⟨_, rfl, by decide⟩, _, rfl, by decide⟩

/-- The longest ROM. -/
theorem witness_ResetIsLegal :
    ∃ t, initialise Config.standardGlyphs (List.replicate 3584 1) ⟨[0xA5], 0, 0⟩ = .next t :=
  ⟨_, if_pos (by rw [List.length_replicate])⟩

/-- The longest ROM, and an address of each of the three kinds. -/
theorem witness_InitialStateHoldsFontAndRom :
    (List.replicate 3584 (1 : Byte)).length ≤ 3584 ∧ 79 < 80 ∧ 3583 < (List.replicate 3584 (1 : Byte)).length ∧
    0xFFF < 4096 ∧ ¬ (fontBase ≤ 0xFFF ∧ 0xFFF < fontBase + 80) ∧
    ¬ (0x200 ≤ 0xFFF ∧ 0xFFF < 0x200 + ([] : List Byte).length) := by
  have := Config.fontBase.isLt
  simp only [List.length_replicate, List.length_nil, fontBase]
  omega

theorem witness_OverlongRomIsRefused : 3584 < (List.replicate 3585 (1 : Byte)).length := by
  rw [List.length_replicate]
  omega

/-- The two ends of the ring. -/
theorem witness_RetPopsTheStack :
    (15 : Fin 16).val = (State.reset.sp.toNat + 15) % 16 ∧
    (14 : Fin 16).val = ({ State.reset with sp := 15 }.sp.toNat + 15) % 16 := by decide

theorem witness_CallPushesTheReturnAddress :
    (0 : Fin 16).val = State.reset.sp.toNat % 16 ∧ (15 : Fin 16).val = { State.reset with sp := 15 }.sp.toNat % 16 := by
  decide

/-- The first of the 15 frames that stand, and the one that is overwritten. -/
theorem witness_SeventeenthCallOverwritesTheOldestFrame :
    (1 ≤ 1 ∧ 1 ≤ 16 ∧ (1 : Fin 16).val = (State.reset.sp.toNat + 1) % 16) ∧
    (1 ≤ 16 ∧ 16 ≤ 16 ∧ (0 : Fin 16).val = (State.reset.sp.toNat + 16) % 16) := by decide

/-- Both branches of each condition: equal and unequal. -/
theorem witness_SkipsOnAByte :
    (readReg (alu 0xFF 0) 1).toNat = (0xFF : Byte).toNat ∧ (readReg (alu 0xFF 0) 1).toNat ≠ (0xFE : Byte).toNat := by
  decide

theorem witness_SkipsOnARegister :
    (readReg (alu 7 7) 1).toNat = (readReg (alu 7 7) 2).toNat ∧
    (readReg (alu 7 8) 1).toNat ≠ (readReg (alu 7 8) 2).toNat := by decide

/-- The sums 255 and 256. -/
theorem witness_AddSetsCarry :
    ¬ 255 < (readReg (alu 0xFF 0) 1).toNat + (readReg (alu 0xFF 0) 2).toNat ∧
    255 < (readReg (alu 0xFF 1) 1).toNat + (readReg (alu 0xFF 1) 2).toNat := by decide

/-- Equal operands, which leave 0 in VF, and a minuend one greater. -/
theorem witness_SubtractionsSetNoBorrow :
    ¬ (readReg (alu 5 5) 1).toNat > (readReg (alu 5 5) 2).toNat ∧
    (readReg (alu 6 5) 1).toNat > (readReg (alu 6 5) 2).toNat ∧
    (readReg (alu 5 6) 2).toNat > (readReg (alu 5 6) 1).toNat := by decide

theorem witness_BcdStoresThreeDigits : (withRegs [(1, 0xFF)]).mem.wf = true := by decide

/-- The inclusive ends of the range, V0 and VF. -/
theorem witness_StoreRegistersThroughVx : State.reset.mem.wf = true ∧ (0 : Reg) ≤ 0 ∧ (15 : Reg) ≤ 15 := by decide

theorem witness_LoadRegistersThroughVx : (0 : Reg) ≤ 0 ∧ (15 : Reg) ≤ 15 := by decide

theorem witness_StoredBytesAreFetched :
    State.reset.mem.wf = true ∧ (∃ t, exec (.storeRegs 15) State.reset = .next t) ∧
    (15 : Reg).val = (14 : Reg).val + 1 ∧ (15 : Reg) ≤ 15 := ⟨by decide, ⟨_, rfl⟩, by decide, by decide⟩

/-- A collision (pixel 4 of row 0), and the last row of a sprite of 15. -/
theorem witness_DrwXorsTheSpriteAndReportsCollision :
    15 < 16 ∧ 14 < 15 ∧ (14 : Fin 32).val = ((readReg litCanvas 1).toNat % 32 + 14) % 32 ∧
    ∃ t, exec (.drw 0 1 15) litCanvas = .next t ∧
      litCanvas.video[(0 : Fin 32).val].getMsbD 4 = true ∧ t.video[(0 : Fin 32).val].getMsbD 4 = false :=
  ⟨by decide, by decide, by decide, _, rfl, by decide, by decide⟩

/-- No collision: a sprite of no rows. -/
theorem witness_DrwWithoutCollision :
    ∃ t, exec (.drw 0 1 0) litCanvas = .next t ∧
      ¬ ∃ r : Fin 32, ∃ k < 64, litCanvas.video[r.val].getMsbD k = true ∧ t.video[r.val].getMsbD k = false :=
  ⟨_, rfl, fun ⟨_, _, _, lit, dark⟩ => absurd (lit.symm.trans dark) (by decide)⟩

/-- Column 63 wraps its second pixel to column 0; column 7 lies outside the eight. -/
theorem witness_SpritePixelsWrapAroundTheRow :
    (1 < 8 ∧ (63 + 1) % 64 = 0) ∧ 7 < 64 ∧ ∀ j < 8, 7 ≠ (63 + j) % 64 := by decide

/-- A dark screen with a lit sprite of 15 rows, and with a sprite of no lit pixel. -/
theorem witness_DrawingTwiceRestoresVideo :
    15 < 16 ∧ (0 : Reg) ≠ VF ∧ (14 : Reg) ≠ VF ∧ (∀ r : Fin 32, (canvasAt [0xFF] 0 0).video[r.val] = 0) ∧
    (∃ i < 15, memRead (canvasAt [0xFF] 0 0) ((canvasAt [0xFF] 0 0).index.toNat + i) ≠ 0) ∧
    ¬ ∃ i < 15, memRead (canvasAt [] 0 0) ((canvasAt [] 0 0).index.toNat + i) ≠ 0 :=
  ⟨by decide, by decide, by decide, by decide, ⟨0, by decide, by decide⟩, by decide⟩

/-- A register value above 15, the key pressed and not. -/
theorem witness_SkipsOnAKey :
    (15 : Key).val = (readReg (withRegs [(1, 0xFF)]) 1).toNat % 16 ∧
    keyDown (withKeys [15] (withRegs [(1, 0xFF)])) 15 = true ∧ keyDown (withRegs [(1, 0xFF)]) 15 = false := by decide

/-- Key 15 alone, keys 0 and 15, and none. -/
theorem witness_KeyWaitTakesTheLowestKey :
    (keyDown (withKeys [15] State.reset) 15 = true ∧ ∀ j < (15 : Key), keyDown (withKeys [15] State.reset) j = false) ∧
    (keyDown (withKeys [15, 0] State.reset) 0 = true ∧
      ∀ j < (0 : Key), keyDown (withKeys [15, 0] State.reset) j = false) ∧
    ∀ k : Key, keyDown State.reset k = false := by decide

theorem witness_RunCycleDecaysTimersOnceAfterItsSteps :
    State.reset.fault = none ∧
    (∃ t, core.run 0 { State.reset with soundTimer := 1 } = .next t ∧ t.soundTimer = 1 ∧ t.delayTimer = 0) ∧
    ∃ t, core.run 1 State.reset = .next t :=
  ⟨rfl, ⟨_, rfl, rfl, rfl⟩, _, core_run_eq_next.mpr
    ((runBatch_succ_next (step_of_decode (i := .cls) rfl (by decide))).trans rfl)⟩

/-- The illegal word as the first of one step, and as the second of two. -/
theorem witness_InvalidOpcodeEndsTheCall :
    (∃ t, core.run 0 illegalAt200 = .next t ∧ step t = .fault (.invalidOpcode 0x200 0x8008) ∧ 0 < 1) ∧
    ∃ t, core.run 1 (withBytes 0x200 [0x60, 0x01, 0x80, 0x08]) = .next t ∧
      step t = .fault (.invalidOpcode 0x202 0x8008) ∧ 1 < 2 := by
  refine ⟨⟨_, rfl, step_of_reject (r := .group8Slot 8) (by decide) (by decide), by decide⟩, _,
    core_run_eq_next.mpr
      ((runBatch_succ_next (step_of_decode (i := .ldImm 0 1) (by decide) (by decide))).trans rfl), ?_, by decide⟩
  exact step_of_reject (r := .group8Slot 8) (by decide) (by decide)

theorem witness_KeypadIsConstantThroughACall :
    (∃ t, runCycle 0 (withKeys [3] State.reset) = .ok t) ∧ ∃ f t, runCycle 1 (withKeys [3] illegalAt200) = .error f t :=
  ⟨⟨_, rfl⟩, call_of_a_faulting_step (step_of_reject (r := .group8Slot 8) (by decide) (by decide))⟩

theorem witness_KeyWaitUsesUpTheCall :
    (withBytes 0x200 [0xF1, 0x0A]).fault = none ∧ (withBytes 0x200 [0xF1, 0x0A]).pc.toNat < 4096 ∧
    decodeWord (fetchWord (withBytes 0x200 [0xF1, 0x0A]) (withBytes 0x200 [0xF1, 0x0A]).pc.toNat) = .ok (.ldVxK 1) ∧
    ∀ k : Key, keyDown (withBytes 0x200 [0xF1, 0x0A]) k = false := by decide

theorem witness_ParkedProgramOnlyLosesTimerTicks : parkedAt200.Parked := ⟨by decide, 0x200, by decide, by decide⟩

/-- Two calls of a parked program: the delay timer stops at 0, the sound timer goes from 3 to 1. -/
theorem witness_TimersRunOutOverCalls :
    parkedAt200.Parked ∧
    parkedAt200.delayTimer.toNat - [(⟨Vector.replicate 16 true, none, 5⟩ : HostCall),
      ⟨Vector.replicate 16 false, some ⟨[1], 2, 0⟩, 0⟩].length = 0 ∧
    parkedAt200.soundTimer.toNat - 2 = 1 :=
  ⟨witness_ParkedProgramOnlyLosesTimerTicks, by decide, by decide⟩

/-- A source given with the ROM, one given with a call, and a call that gives none. -/
theorem witness_RandomSourceIsTheHosts :
    (∃ t, initialise Config.standardGlyphs [] ⟨[0xA5], 7, 0⟩ = .next t) ∧
    (⟨Vector.replicate 16 false, some ⟨[0xA5], 7, 0⟩, 1⟩ : HostCall).source = some ⟨[0xA5], 7, 0⟩ ∧
    (⟨Vector.replicate 16 false, none, 1⟩ : HostCall).source = none := ⟨⟨_, rfl⟩, rfl, rfl⟩

theorem witness_OnlyRndReadsTheSource :
    (∀ x nn, Instr.ldImm 15 1 ≠ .rnd x nn) ∧ ∃ t, exec (.ldImm 15 1) (withDraws [0xA5]) = .next t :=
  ⟨fun _ _ => nofun, _, rfl⟩

theorem witness_InjectedBytesAreDrawnInOrder :
    (withDraws [0xA5, 0x0F, 0x77]).source.queued = [0xA5, 0x0F] ++ [0x77] ∧ 1 < [(0xA5 : Byte), 0x0F].length := by decide

/-- One byte queued, and none. -/
theorem witness_RndStoresOneMaskedDraw :
    (withDraws [0xA5]).source.queued = 0xA5 :: [] ∧ State.reset.source.queued = [] := by decide

end Sys2Proof.Tests
end

section
/-! PROOFS, 20_memory: addresses are reduced modulo 4096 (R52), and every instruction has a next state. -/

namespace Sys2Proof.Machine

/-! ### Addresses modulo 4096 -/

theorem memRead_congr {a b : Nat} (s : State) (h : a % 4096 = b % 4096) : memRead s a = memRead s b := by
  simp only [memRead, h]

theorem memWrite_congr {a b : Nat} (v : Byte) (s : State) (h : a % 4096 = b % 4096) :
    memWrite a v s = memWrite b v s := by
  simp only [memWrite, h]

theorem storeBytes_congr {a b : Nat} (bs : List Byte) (s : State) (h : a % 4096 = b % 4096) :
    storeBytes a bs s = storeBytes b bs s := by
  induction bs generalizing a b s with
  | nil => rfl
  | cons v bs ih =>
    simp only [storeBytes]
    rw [memWrite_congr v s h, ih _ (Nat.ModEq.add_right 1 h)]

theorem fetchWord_congr {a b : Nat} (s : State) (h : a % 4096 = b % 4096) : fetchWord s a = fetchWord s b := by
  simp only [fetchWord, memRead_congr s h, memRead_congr s (Nat.ModEq.add_right 1 h)]

/-- A run reduces each of its addresses on its own (43_index_memory R175). -/
theorem storeBytes_cons_mod (a : Nat) (v : Byte) (bs : List Byte) (s : State) :
    storeBytes a (v :: bs) s = storeBytes ((a + 1) % 4096) bs (memWrite (a % 4096) v s) := by
  rw [storeBytes, memWrite_congr v s (Nat.mod_mod a 4096), storeBytes_congr bs _ (Nat.mod_mod (a + 1) 4096)]

/-! ### No instruction fails -/

theorem exec_ldVxK_of_some (x : Reg) {s : State} {k : Key} (h : lowestKey s = some k) :
    exec (.ldVxK x) s = .next (writeReg x (BitVec.ofNat 8 k.val) s) := by
  simp only [exec, execLdVxK, h]

theorem exec_ldVxK_of_none (x : Reg) {s : State} (h : lowestKey s = none) :
    exec (.ldVxK x) s = .next (rewindPc s) := by
  simp only [exec, execLdVxK, h]

/-- Every meaning is a next state outright, except that `LD Vx, K` first looks for a pressed key; both of its branches
are next states. -/
theorem exec_next (i : Instr) (s : State) : ∃ t, exec i s = .next t := by
  cases i
  case ldVxK x =>
    cases h : lowestKey s with
    | some k => exact ⟨_, exec_ldVxK_of_some x h⟩
    | none => exact ⟨_, exec_ldVxK_of_none x h⟩
  all_goals exact ⟨_, rfl⟩

/-- Settles O6: every access goes through `memRead` and `memWrite`, which reduce their address (R52), and `exec_next`
leaves no address that could raise an error. -/
theorem addressesWrapModulo4096 : Obligations.AddressesWrapModulo4096 :=
  ⟨fun s _ _ h => ⟨memRead_congr s h, fun v => memWrite_congr v s h, fun bs => storeBytes_congr bs s h,
      fetchWord_congr s h⟩,
    fun s a v bs => storeBytes_cons_mod a v bs s, exec_next⟩

end Sys2Proof.Machine
end

section
/-! PROOFS, 30_encoding: every word selects one well-formed instruction or InvalidOpcode (R84). -/

namespace Sys2Proof

/-! ### What the decoder answers is well formed

`DRW` is the only instruction with a field that its type does not bound (R72), and no slot of a second-level table
holds it, so the primary dispatch on 0xD is the one place where there is something to check. -/

section
variable {w : Word} {x y : Reg} {n : Nat}

theorem decodeGroup0_ne_drw : decodeGroup0 w ≠ .ok (.drw x y n) := by
  unfold decodeGroup0
  split <;> nofun

theorem decodeGroup8_ne_drw : decodeGroup8 w ≠ .ok (.drw x y n) := by
  unfold decodeGroup8
  split <;> nofun

theorem decodeGroupE_ne_drw : decodeGroupE w ≠ .ok (.drw x y n) := by
  unfold decodeGroupE
  split <;> nofun

theorem decodeGroupF_ne_drw : decodeGroupF w ≠ .ok (.drw x y n) := by
  unfold decodeGroupF
  split
  case h_10 => split <;> nofun
  all_goals nofun

/-- The number of sprite rows is the field N (R71). -/
theorem rows_eq_nField_of_decodeWord (h : decodeWord w = .ok (.drw x y n)) : n = (nField w).toNat := by
  unfold decodeWord at h
  split at h
  case h_1 => exact absurd h decodeGroup0_ne_drw
  case h_9 => exact absurd h decodeGroup8_ne_drw
  case h_14 => cases h; rfl
  case h_15 => exact absurd h decodeGroupE_ne_drw
  case h_16 => exact absurd h decodeGroupF_ne_drw
  all_goals cases h

end

theorem decodeWord_wf {w : Word} {i : Instr} (h : decodeWord w = .ok i) : i.wf = true := by
  cases i
  case drw x y n =>
    rw [rows_eq_nField_of_decodeWord h]
    exact decide_eq_true (nField w).isLt
  all_goals rfl

end Sys2Proof

namespace Sys2Proof.Machine

/-- Settles O4: the two answers of the decoder are the two cases, and a step uses nothing but that answer to select
what it does. -/
theorem routingReadsOnlyTheWord : Obligations.RoutingReadsOnlyTheWord := by
  intro w
  cases hd : decodeWord w with
  | ok i =>
    refine .inl ⟨i, decodeWord_wf hd, rfl, fun s hf hw => ?_⟩
    exact step_of_decode hf (hw ▸ hd)
  | error r =>
    refine .inr ⟨r, rfl, fun s hf hw => ?_⟩
    subst hw
    exact step_of_reject hf hd

end Sys2Proof.Machine
end

section
/-! PROOFS, 40_fetch: the fetched word (R100) and the two outcomes of a step (R105). -/

namespace Sys2Proof.Machine

/-! ### A step -/

/-- The decoder's answer is the only choice that a step of an unmarked state makes: what it runs always has a next state
(`exec_next`), so the one other outcome is the error for a word that it rejects. -/
theorem step_next_or_invalidOpcode {s : State} (hf : s.fault = none) :
    (∃ t, step s = .next t) ∨ step s = .fault (.invalidOpcode s.pc (fetchWord s s.pc.toNat)) := by
  cases hd : decodeWord (fetchWord s s.pc.toNat) with
  | ok i =>
    rw [step_of_decode hf hd]
    exact .inl (exec_next i (advancePc s))
  | error r => exact .inr (step_of_reject hf hd)

/-- `rewindPc` adds 4094 where the rule subtracts 2 (45_io R215). -/
theorem rewindPc_pc_toNat (s : State) : (rewindPc s).pc.toNat = (s.pc.toNat + 4096 - 2) % 4096 := by
  rw [rewindPc_pc, wrapAddr_toNat]
  omega

/-- Settles O11: the fetch half is the only source of errors, and a key wait without a key is a rewind. -/
theorem stepHasTwoOutcomesAndNoInstructionFails : Obligations.StepHasTwoOutcomesAndNoInstructionFails :=
  ⟨fun _ hf => step_next_or_invalidOpcode hf, exec_next,
    fun x s hkeys => ⟨rewindPc s, exec_ldVxK_of_none x (lowestKey_eq_none.mpr hkeys), rewindPc_pc_toNat s⟩⟩

/-! ### A fetch -/

/-- Settles O8: each of the two reads reduces its own address, so the second byte of a fetch at 4095 is the one at 0. -/
theorem fetchReadsTwoBytesBigEndian : Obligations.FetchReadsTwoBytesBigEndian := by
  intro s a
  rw [fetchWord, wordOfBytes_toNat, memRead_congr s (Nat.mod_mod a 4096), memRead_congr s (Nat.mod_mod (a + 1) 4096)]

end Sys2Proof.Machine
end

section
/-! PROOFS, 60_exceptions: the decay of the timers at the end of a call (R240). -/

namespace Sys2Proof.Machine

/-- A call whose batch ran to its end decays the timers of the batch's last state, and ends well (40_fetch R108). -/
theorem runCycle_of_runBatch_ok {n : Nat} {s t : State} (h : runBatch n s = .ok t) :
    runCycle n s = .ok (decayTimers t) := by
  rw [runCycle, h]

/-- Settles O48: the n steps are the call's batch, and what the call adds to them is one `decayTimers`, which writes the
two timers only. That s is unmarked is not needed: on a marked state only n = 0 answers a next state. -/
theorem runCycleDecaysTimersOnceAfterItsSteps : Obligations.RunCycleDecaysTimersOnceAfterItsSteps := by
  intro n s t _ hrun
  have hcall : runCycle n s = .ok (decayTimers t) := runCycle_of_runBatch_ok (core_run_eq_next.mp hrun)
  exact ⟨decayTimers t, hcall, decayed_toNat t.delayTimer, decayed_toNat t.soundTimer, decayTimers_frame t⟩

end Sys2Proof.Machine
end

section
/-! PROOFS, 70_reset: the Initializer's state, its font and its ROM (R260, R262, R263). -/

namespace Sys2Proof.Machine

/-- What the Initializer answers for a ROM that fits: the font is loaded first, and the ROM after it (R260). -/
def loadedState (glyphs : Vector Byte 80) (rom : List Byte) (source : RandomSource) : State :=
  storeBytes 0x200 rom (storeBytes fontBase glyphs.toList { State.reset with source := source })

section
variable (glyphs : Vector Byte 80) {rom : List Byte} (source : RandomSource)

theorem initialise_of_fits (hrom : rom.length ≤ 3584) :
    initialise glyphs rom source = .next (loadedState glyphs rom source) := if_pos hrom

/-- Loading writes memory and nothing else, so every other field is the one of `State.reset`. -/
theorem loadedState_eq : loadedState glyphs rom source =
    { State.reset with source := source, mem := (loadedState glyphs rom source).mem } := by
  have hfont := storeBytes_eq fontBase glyphs.toList { State.reset with source := source }
  exact (storeBytes_eq 0x200 rom _).trans
    (congrArg (fun s : State => { s with mem := (loadedState glyphs rom source).mem }) hfont)

/-! ### Memory

The font ends at or below 0x200 and the ROM at or below 0x1000 (R262, R263). So no address of either wraps, and neither
store overwrites a byte of the other. -/

theorem fontBase_add_80_le : fontBase + 80 ≤ 0x200 := by
  have := Config.fontBase.isLt
  unfold fontBase
  omega

theorem unlistedByte_eq_zero {a : Nat} (ha : ¬ (fontBase ≤ a ∧ a < fontBase + 80)) : unlistedByte a = 0 := by
  simp only [unlistedByte, if_neg ha, ite_self]

theorem memRead_loadedState_rom (hrom : rom.length ≤ 3584) {j : Nat} (hj : j < rom.length) :
    memRead (loadedState glyphs rom source) (0x200 + j) = rom[j] :=
  memRead_storeBytes_same 0x200 rom (storeBytes_wf fontBase _ rfl) (by omega) hj rfl

/-- An address outside the ROM holds what it held once the font was loaded. -/
theorem memRead_loadedState_of_not_rom (hrom : rom.length ≤ 3584) {a : Nat} (ha : a < 4096)
    (hout : ¬ (0x200 ≤ a ∧ a < 0x200 + rom.length)) :
    memRead (loadedState glyphs rom source) a =
      memRead (storeBytes fontBase glyphs.toList { State.reset with source := source }) a :=
  memRead_storeBytes_ne 0x200 rom _ fun k hk => by omega

theorem memRead_loadedState_font (hrom : rom.length ≤ 3584) {i : Nat} (hi : i < 80) :
    memRead (loadedState glyphs rom source) (fontBase + i) = glyphs[i] := by
  have hfont := fontBase_add_80_le
  rw [memRead_loadedState_of_not_rom glyphs source hrom (by omega) (by omega),
    memRead_storeBytes_same fontBase glyphs.toList rfl (by simp) (by simpa using hi) rfl, Vector.getElem_toList]

theorem memRead_loadedState_elsewhere (hrom : rom.length ≤ 3584) {a : Nat} (ha : a < 4096)
    (hfont : ¬ (fontBase ≤ a ∧ a < fontBase + 80)) (hout : ¬ (0x200 ≤ a ∧ a < 0x200 + rom.length)) :
    memRead (loadedState glyphs rom source) a = 0 := by
  have hle := fontBase_add_80_le
  have hread : memRead { State.reset with source := source } a = unlistedByte (a % 4096) := rfl
  rw [memRead_loadedState_of_not_rom glyphs source hrom ha hout, memRead_storeBytes_ne, hread, Nat.mod_eq_of_lt ha,
    unlistedByte_eq_zero hfont]
  intro k hk
  rw [Vector.length_toList] at hk
  omega

end

/-- Settles O20: loading touches memory alone, so the other items of the table are `State.reset`'s, and each byte of
memory lies in the ROM, in the font or in neither. -/
theorem initialStateHoldsFontAndRom : Obligations.InitialStateHoldsFontAndRom := by
  intro glyphs rom source hrom
  refine ⟨_, initialise_of_fits glyphs source hrom, ?_, ?_, ?_, ?_, ?_, ?_, ?_, ?_, ?_, ?_,
    fun i hi => memRead_loadedState_font glyphs source hrom hi,
    fun j hj => memRead_loadedState_rom glyphs source hrom hj,
    fun a ha hfont hout => memRead_loadedState_elsewhere glyphs source hrom ha hfont hout⟩
  all_goals rw [loadedState_eq]
  exacts [fun _ => Vector.getElem_replicate _, rfl, rfl, rfl, fun _ => Vector.getElem_replicate _, rfl, rfl,
    fun _ => Vector.getElem_replicate _, fun _ => Vector.getElem_replicate _, rfl]

end Sys2Proof.Machine
end

section
/-! PROOFS, 30_encoding: the fields of the encoder's words, and what the decoder answers for them (R71, R86, R91). -/

namespace Sys2Proof

section
variable {op : Nat}

/-! ### The fields of a word with an address -/

theorem opField_wordA (h : op < 16) (nnn : BitVec 12) : (opField (wordA op nnn)).toNat = op := by
  rw [opField_toNat, wordA_toNat h]
  omega

theorem nnnField_wordA (h : op < 16) (nnn : BitVec 12) : nnnField (wordA op nnn) = nnn := by
  apply BitVec.eq_of_toNat_eq
  rw [nnnField_toNat, wordA_toNat h]
  omega

/-! ### The fields of a word with a register and a byte -/

theorem opField_wordXNN (h : op < 16) (x : Reg) (nn : Byte) : (opField (wordXNN op x nn)).toNat = op := by
  rw [opField_toNat, wordXNN_toNat h]
  omega

theorem xField_wordXNN (h : op < 16) (x : Reg) (nn : Byte) : xField (wordXNN op x nn) = x := by
  apply Fin.ext
  rw [xField_val, wordXNN_toNat h]
  omega

theorem nnField_wordXNN (h : op < 16) (x : Reg) (nn : Byte) : nnField (wordXNN op x nn) = nn := by
  apply BitVec.eq_of_toNat_eq
  rw [nnField_toNat, wordXNN_toNat h]
  omega

theorem nField_wordXNN (h : op < 16) (x : Reg) (nn : Byte) : (nField (wordXNN op x nn)).toNat = nn.toNat % 16 := by
  rw [nField_toNat, wordXNN_toNat h]
  omega

/-! ### The fields of a word with two registers and a last nibble -/

theorem opField_wordXYN (h : op < 16) (x y : Reg) (n : Nat) : (opField (wordXYN op x y n)).toNat = op := by
  rw [opField_toNat, wordXYN_toNat h]
  omega

theorem xField_wordXYN (h : op < 16) (x y : Reg) (n : Nat) : xField (wordXYN op x y n) = x := by
  apply Fin.ext
  rw [xField_val, wordXYN_toNat h]
  omega

theorem yField_wordXYN (h : op < 16) (x y : Reg) (n : Nat) : yField (wordXYN op x y n) = y := by
  apply Fin.ext
  rw [yField_val, wordXYN_toNat h]
  omega

theorem nField_wordXYN (h : op < 16) (x y : Reg) (n : Nat) : (nField (wordXYN op x y n)).toNat = n % 16 := by
  rw [nField_toNat, wordXYN_toNat h]
  omega

end

theorem decodeWord_encode {i : Instr} (h : i.wf = true) : decodeWord (encode i) = .ok i := by
  cases i
  case cls | ret => rfl
  case jp | call | ldI | jpV0 => simp [encode, decodeWord, opField_wordA, nnnField_wordA]
  case seImm | sneImm | ldImm | addImm | rnd =>
    simp [encode, decodeWord, opField_wordXNN, xField_wordXNN, nnField_wordXNN]
  case seReg | sneReg => simp [encode, decodeWord, opField_wordXYN, xField_wordXYN, yField_wordXYN]
  case ldReg | orReg | andReg | xorReg | addReg | sub | shr | subn | shl =>
    simp [encode, decodeWord, decodeGroup8, opField_wordXYN, xField_wordXYN, yField_wordXYN, nField_wordXYN]
  case drw x y n =>
    have hn : n % 16 = n := Nat.mod_eq_of_lt (of_decide_eq_true h)
    simp [encode, decodeWord, opField_wordXYN, xField_wordXYN, yField_wordXYN, nField_wordXYN, hn]
  case skp | sknp => simp [encode, decodeWord, decodeGroupE, opField_wordXNN, xField_wordXNN, nField_wordXNN]
  case ldVxDt | ldVxK | ldDtVx | ldStVx | addI | ldF | ldB | storeRegs | loadRegs =>
    simp [encode, decodeWord, decodeGroupF, opField_wordXNN, xField_wordXNN, nnField_wordXNN]

/-- The decoder reads the bytes of an instruction off the head of any bytes (20_memory R56). -/
theorem decode_encodeBytes_append {i : Instr} (h : i.wf = true) (rest : List Byte) :
    decode (encodeBytes i ++ rest) = .ok (i, rest) := by
  simp only [encodeBytes, List.cons_append, List.nil_append, decode, wordOfBytes_hiByte_loByte, decodeWord_encode h]

/-- Settles O1: the fields of the encoder's word are the operands of the instruction, and the two bytes of a word make
the word again. -/
theorem decodeOfEncodeGivesTheInstruction : Obligations.DecodeOfEncodeGivesTheInstruction :=
  fun _ h => ⟨decodeWord_encode h, decode_encodeBytes_append h⟩

end Sys2Proof
end

section
/-! PROOFS, 30_encoding: the dispatch and the opcode map decode alike, and the illegal words (R74 to R79, R86, R88). -/

namespace Sys2Proof

/-! ### A masked word and its fields -/

section
variable {w p : Word}

theorem and_F000_iff (hp : p.toNat % 4096 = 0) :
    w &&& 0xF000#16 = p ↔ (opField w).toNat = p.toNat / 4096 := by
  have := w.isLt
  have := p.isLt
  rw [← BitVec.toNat_inj, toNat_and_F000, opField_toNat]
  omega

theorem and_F00F_iff (hp : p.toNat % 4096 < 16) :
    w &&& 0xF00F#16 = p ↔ (opField w).toNat = p.toNat / 4096 ∧ (nField w).toNat = p.toNat % 16 := by
  have := w.isLt
  have := p.isLt
  rw [← BitVec.toNat_inj, toNat_and_F00F, opField_toNat, nField_toNat]
  omega

theorem and_F0FF_iff (hp : p.toNat % 4096 < 256) :
    w &&& 0xF0FF#16 = p ↔ (opField w).toNat = p.toNat / 4096 ∧ (nnField w).toNat = p.toNat % 256 := by
  have := w.isLt
  have := p.isLt
  rw [← BitVec.toNat_inj, toNat_and_F0FF, opField_toNat, nnField_toNat]
  omega

end

/-! ### From the map to the dispatch -/

section
variable {w : Word} {row : OpcodeRow} (hw : w &&& row.mask = row.pattern)
include hw

theorem decodeWord_of_mem_opcodeMapLow (hrow : row ∈ opcodeMapLow) : decodeWord w = .ok (row.build w) := by
  fin_cases hrow
  iterate 2
    · obtain ⟨hop, hn⟩ := (and_F00F_iff (by decide)).mp hw
      simp [decodeWord, decodeGroup0, hop, hn]
  all_goals
    have hop := (and_F000_iff (by decide)).mp hw
    simp [decodeWord, hop]

theorem decodeWord_of_mem_opcodeMapAlu (hrow : row ∈ opcodeMapAlu) : decodeWord w = .ok (row.build w) := by
  fin_cases hrow
  all_goals
    obtain ⟨hop, hn⟩ := (and_F00F_iff (by decide)).mp hw
    simp [decodeWord, decodeGroup8, hop, hn]

theorem decodeWord_of_mem_opcodeMapHigh (hrow : row ∈ opcodeMapHigh) : decodeWord w = .ok (row.build w) := by
  fin_cases hrow
  iterate 5
    · have hop := (and_F000_iff (by decide)).mp hw
      simp [decodeWord, hop]
  all_goals
    obtain ⟨hop, hn⟩ := (and_F00F_iff (by decide)).mp hw
    simp [decodeWord, decodeGroupE, hop, hn]

theorem decodeWord_of_mem_opcodeMapF (hrow : row ∈ opcodeMapF) : decodeWord w = .ok (row.build w) := by
  fin_cases hrow
  all_goals
    obtain ⟨hop, hnn⟩ := (and_F0FF_iff (by decide)).mp hw
    simp [decodeWord, decodeGroupF, hop, hnn]

/-- A word that has the fixed bits of a row is that row's instruction to the dispatch. -/
theorem decodeWord_of_mem_opcodeMap (hrow : row ∈ opcodeMap) : decodeWord w = .ok (row.build w) := by
  simp only [opcodeMap, List.mem_append] at hrow
  obtain ((hlow | halu) | hhigh) | hf := hrow
  · exact decodeWord_of_mem_opcodeMapLow hw hlow
  · exact decodeWord_of_mem_opcodeMapAlu hw halu
  · exact decodeWord_of_mem_opcodeMapHigh hw hhigh
  · exact decodeWord_of_mem_opcodeMapF hw hf

end

/-! ### From the dispatch to the map -/

section
variable {w : Word} {i : Instr}

theorem exists_row (k : Fin 34) (h : w &&& opcodeMap[k].mask = opcodeMap[k].pattern) :
    ∃ row ∈ opcodeMap, w &&& row.mask = row.pattern := ⟨opcodeMap[k], List.getElem_mem _, h⟩

theorem exists_row_of_decodeGroup0 (hop : (opField w).toNat = 0x0) (h : decodeGroup0 w = .ok i) :
    ∃ row ∈ opcodeMap, w &&& row.mask = row.pattern := by
  unfold decodeGroup0 at h
  split at h
  case h_1 hn => exact exists_row 0 ((and_F00F_iff (by decide)).mpr ⟨hop, hn⟩)
  case h_2 hn => exact exists_row 1 ((and_F00F_iff (by decide)).mpr ⟨hop, hn⟩)
  case h_3 => cases h

theorem exists_row_of_decodeGroup8 (hop : (opField w).toNat = 0x8) (h : decodeGroup8 w = .ok i) :
    ∃ row ∈ opcodeMap, w &&& row.mask = row.pattern := by
  unfold decodeGroup8 at h
  split at h
  case h_1 hn => exact exists_row 9 ((and_F00F_iff (by decide)).mpr ⟨hop, hn⟩)
  case h_2 hn => exact exists_row 10 ((and_F00F_iff (by decide)).mpr ⟨hop, hn⟩)
  case h_3 hn => exact exists_row 11 ((and_F00F_iff (by decide)).mpr ⟨hop, hn⟩)
  case h_4 hn => exact exists_row 12 ((and_F00F_iff (by decide)).mpr ⟨hop, hn⟩)
  case h_5 hn => exact exists_row 13 ((and_F00F_iff (by decide)).mpr ⟨hop, hn⟩)
  case h_6 hn => exact exists_row 14 ((and_F00F_iff (by decide)).mpr ⟨hop, hn⟩)
  case h_7 hn => exact exists_row 15 ((and_F00F_iff (by decide)).mpr ⟨hop, hn⟩)
  case h_8 hn => exact exists_row 16 ((and_F00F_iff (by decide)).mpr ⟨hop, hn⟩)
  case h_9 hn => exact exists_row 17 ((and_F00F_iff (by decide)).mpr ⟨hop, hn⟩)
  case h_10 => cases h

theorem exists_row_of_decodeGroupE (hop : (opField w).toNat = 0xE) (h : decodeGroupE w = .ok i) :
    ∃ row ∈ opcodeMap, w &&& row.mask = row.pattern := by
  unfold decodeGroupE at h
  split at h
  case h_1 hn => exact exists_row 24 ((and_F00F_iff (by decide)).mpr ⟨hop, hn⟩)
  case h_2 hn => exact exists_row 23 ((and_F00F_iff (by decide)).mpr ⟨hop, hn⟩)
  case h_3 => cases h

theorem exists_row_of_decodeGroupF (hop : (opField w).toNat = 0xF) (h : decodeGroupF w = .ok i) :
    ∃ row ∈ opcodeMap, w &&& row.mask = row.pattern := by
  unfold decodeGroupF at h
  split at h
  case h_1 hnn => exact exists_row 25 ((and_F0FF_iff (by decide)).mpr ⟨hop, hnn⟩)
  case h_2 hnn => exact exists_row 26 ((and_F0FF_iff (by decide)).mpr ⟨hop, hnn⟩)
  case h_3 hnn => exact exists_row 27 ((and_F0FF_iff (by decide)).mpr ⟨hop, hnn⟩)
  case h_4 hnn => exact exists_row 28 ((and_F0FF_iff (by decide)).mpr ⟨hop, hnn⟩)
  case h_5 hnn => exact exists_row 29 ((and_F0FF_iff (by decide)).mpr ⟨hop, hnn⟩)
  case h_6 hnn => exact exists_row 30 ((and_F0FF_iff (by decide)).mpr ⟨hop, hnn⟩)
  case h_7 hnn => exact exists_row 31 ((and_F0FF_iff (by decide)).mpr ⟨hop, hnn⟩)
  case h_8 hnn => exact exists_row 32 ((and_F0FF_iff (by decide)).mpr ⟨hop, hnn⟩)
  case h_9 hnn => exact exists_row 33 ((and_F0FF_iff (by decide)).mpr ⟨hop, hnn⟩)
  case h_10 => split at h <;> cases h

/-- The case of the primary dispatch that has no number of its own is the selector 0xF. -/
theorem opField_eq_F (h : ∀ k < 15, (opField w).toNat ≠ k) : (opField w).toNat = 0xF := by
  have hlt := (opField w).isLt
  have hne := h (opField w).toNat
  omega

theorem exists_row_of_decodeWord (h : decodeWord w = .ok i) : ∃ row ∈ opcodeMap, w &&& row.mask = row.pattern := by
  unfold decodeWord at h
  split at h
  case h_1 hop => exact exists_row_of_decodeGroup0 hop h
  case h_2 hop => exact exists_row 2 ((and_F000_iff (by decide)).mpr hop)
  case h_3 hop => exact exists_row 3 ((and_F000_iff (by decide)).mpr hop)
  case h_4 hop => exact exists_row 4 ((and_F000_iff (by decide)).mpr hop)
  case h_5 hop => exact exists_row 5 ((and_F000_iff (by decide)).mpr hop)
  case h_6 hop => exact exists_row 6 ((and_F000_iff (by decide)).mpr hop)
  case h_7 hop => exact exists_row 7 ((and_F000_iff (by decide)).mpr hop)
  case h_8 hop => exact exists_row 8 ((and_F000_iff (by decide)).mpr hop)
  case h_9 hop => exact exists_row_of_decodeGroup8 hop h
  case h_10 hop => exact exists_row 18 ((and_F000_iff (by decide)).mpr hop)
  case h_11 hop => exact exists_row 19 ((and_F000_iff (by decide)).mpr hop)
  case h_12 hop => exact exists_row 20 ((and_F000_iff (by decide)).mpr hop)
  case h_13 hop => exact exists_row 21 ((and_F000_iff (by decide)).mpr hop)
  case h_14 hop => exact exists_row 22 ((and_F000_iff (by decide)).mpr hop)
  case h_15 hop => exact exists_row_of_decodeGroupE hop h
  case h_16 => exact exists_row_of_decodeGroupF (opField_eq_F (by grind)) h

theorem decodeWord_eq_ok_iff : decodeWord w = .ok i ↔
    ∃ row ∈ opcodeMap, w &&& row.mask = row.pattern ∧ row.build w = i := by
  constructor
  · intro h
    obtain ⟨row, hrow, hw⟩ := exists_row_of_decodeWord h
    have hrow' := decodeWord_of_mem_opcodeMap hw hrow
    exact ⟨row, hrow, hw, Except.ok.inj (hrow'.symm.trans h)⟩
  · rintro ⟨row, hrow, hw, rfl⟩
    exact decodeWord_of_mem_opcodeMap hw hrow

end

/-! ### Rows do not overlap -/

/-- The fixed bits of two rows differ in some bit that both fix. -/
def OpcodeRow.Apart (p q : OpcodeRow) : Prop := p.pattern &&& q.mask ≠ q.pattern &&& p.mask

theorem OpcodeRow.Apart.not_both {p q : OpcodeRow} (h : p.Apart q) (w : Word) :
    ¬ (w &&& p.mask = p.pattern ∧ w &&& q.mask = q.pattern) := by
  rintro ⟨hp, hq⟩
  apply h
  rw [← hp, ← hq, BitVec.and_assoc, BitVec.and_assoc, BitVec.and_comm p.mask]

theorem opcodeMap_pairwise_apart : opcodeMap.Pairwise OpcodeRow.Apart := by
  unfold OpcodeRow.Apart
  decide

/-- Settles O2: each row is one case of the dispatch, so a word that the dispatch accepts has the fixed bits of a row,
and that row's instruction is the one answered; any two rows differ in a bit that both fix. -/
theorem decoderAgreesWithOpcodeMap : Obligations.DecoderAgreesWithOpcodeMap :=
  ⟨rfl, fun _ _ => decodeWord_eq_ok_iff, opcodeMap_pairwise_apart.imp OpcodeRow.Apart.not_both⟩

/-! ### Illegal words -/

section
variable {w : Word}

theorem decodeGroup0_error_iff : (∃ r, decodeGroup0 w = .error r) ↔ nField w ∉ [0x0, 0xE] := by
  unfold decodeGroup0
  split <;> simp_all [← BitVec.toNat_inj]

theorem decodeGroup8_error_iff :
    (∃ r, decodeGroup8 w = .error r) ↔ nField w ∈ [0x8, 0x9, 0xA, 0xB, 0xC, 0xD, 0xF] := by
  have := (nField w).isLt
  unfold decodeGroup8
  split
  case h_10 => 
    simp_all [← BitVec.toNat_inj]
    omega
  all_goals simp_all [← BitVec.toNat_inj]

theorem decodeGroupE_error_iff : (∃ r, decodeGroupE w = .error r) ↔ nField w ∉ [0x1, 0xE] := by
  unfold decodeGroupE
  split <;> simp_all [← BitVec.toNat_inj]

theorem decodeGroupF_error_iff : (∃ r, decodeGroupF w = .error r) ↔
    nnField w ∉ [0x07, 0x0A, 0x15, 0x18, 0x1E, 0x29, 0x33, 0x55, 0x65] := by
  unfold decodeGroupF
  split
  case h_10 => split <;> simp_all [← BitVec.toNat_inj]
  all_goals simp_all [← BitVec.toNat_inj]

/-- Settles O3: each clause is one group of the dispatch with its unassigned slots; a word of any other selector is an
instruction. -/
theorem illegalWordsAreThoseListed : Obligations.IllegalWordsAreThoseListed := by
  intro w
  have hop (k : BitVec 4) : opField w = k ↔ (opField w).toNat = k.toNat := BitVec.toNat_inj.symm
  simp only [hop]
  unfold decodeWord
  split
  case h_1 h0 => simp [h0, decodeGroup0_error_iff]
  case h_9 h8 => simp [h8, decodeGroup8_error_iff]
  case h_15 hE => simp [hE, decodeGroupE_error_iff]
  case h_16 => simp [opField_eq_F (w := w) (by grind), decodeGroupF_error_iff]
  all_goals simp [*]

end

end Sys2Proof
end

section
/-! PROOFS, 10_state: every step and every call keeps the legal ranges (R24, R27 to R30, R32, R37). -/

namespace Sys2Proof.Machine

/-- All that `LD Vx, K` can do (45_io R215). -/
theorem exec_ldVxK_cases {x : Reg} {s t : State} (h : exec (.ldVxK x) s = .next t) :
    (∃ k, t = writeReg x (BitVec.ofNat 8 k) s) ∨ t = rewindPc s := by
  cases hk : lowestKey s with
  | some k => exact .inl ⟨k.val, Host.Outcome.next.inj (h.symm.trans (exec_ldVxK_of_some x hk))⟩
  | none => exact .inr (Host.Outcome.next.inj (h.symm.trans (exec_ldVxK_of_none x hk)))

/-! ### What each operation does to the legal ranges -/

section
variable {s : State} (h : s.Legal)
include h

theorem State.Legal.writeReg (x : Reg) (b : Byte) : (writeReg x b s).Legal := { h with }

theorem State.Legal.writeResultAndFlag (x : Reg) (r : Byte) (f : Bool) : (writeResultAndFlag x r f s).Legal := by
  rw [writeResultAndFlag_eq]
  exact { h with }

theorem State.Legal.setPc (n : Nat) : (setPc n s).Legal := { h with pc_lt := wrapAddr_lt n }

theorem State.Legal.advancePc : (advancePc s).Legal := h.setPc _

theorem State.Legal.skipIf (c : Bool) : (skipIf c s).Legal := by
  cases c
  · exact h
  · exact h.advancePc

theorem State.Legal.setIndex (n : Nat) : (setIndex n s).Legal := { h with index_lt := wrapAddr_lt n }

theorem State.Legal.popPc : (popPc s).Legal :=
  { h with
    pc_lt := wrapAddr_lt _
    sp_lt := by
      rw [popPc_sp, prevSp_toNat]
      exact Nat.mod_lt _ (by decide) }

/-- The slot pushed is `pc`, which is below 4096 (R30). -/
theorem State.Legal.pushPc : (pushPc s).Legal :=
  { h with
    sp_lt := by
      rw [pushPc_sp, nextSp_toNat]
      exact Nat.mod_lt _ (by decide)
    slot_lt := fun k => by
      rw [readSlot_pushPc]
      split
      · exact h.pc_lt
      · exact h.slot_lt k }

theorem State.Legal.takeDraw : (takeDraw s).Legal := { h with }

theorem State.Legal.storeBytes (a : Nat) (bs : List Byte) : (storeBytes a bs s).Legal := by
  have hwf : (Machine.storeBytes a bs s).mem.wf = true := storeBytes_wf a bs h.mem_wf
  rw [storeBytes_eq]
  exact { h with mem_wf := hwf }

theorem State.Legal.loadThrough (x : Reg) : (loadThrough x s).Legal where
  pc_lt := by simpa using h.pc_lt
  index_lt := by simpa using h.index_lt
  sp_lt := by simpa using h.sp_lt
  slot_lt := by simpa using h.slot_lt
  mem_wf := by simpa using h.mem_wf

theorem State.Legal.withVideo (video : Vector Row 32) : { s with video := video }.Legal := { h with }

theorem State.Legal.withSource (r : RandomSource) : { s with source := r }.Legal := { h with }

theorem State.Legal.decayTimers : (decayTimers s).Legal := { h with }

theorem State.Legal.leftBehind (f : Fault) : (leftBehind f s).Legal := by
  cases f
  · exact { h.advancePc with }
  · exact h

/-! ### Instructions and steps -/

theorem exec_legal {i : Instr} {t : State} (he : exec i s = .next t) : t.Legal := by
  cases i
  case ldVxK x =>
    obtain ⟨k, rfl⟩ | rfl := exec_ldVxK_cases he
    · exact h.writeReg _ _
    · exact h.setPc _
  all_goals cases he
  case cls => exact h.withVideo _
  case ret => exact h.popPc
  case jp | jpV0 => exact h.setPc _
  case call => exact h.pushPc.setPc _
  case seImm | sneImm | seReg | sneReg | skp | sknp => exact h.skipIf _
  case ldImm | addImm | ldReg | orReg | andReg | xorReg | ldVxDt => exact h.writeReg _ _
  case addReg | sub | shr | subn | shl => exact h.writeResultAndFlag _ _ _
  case ldI | addI | ldF => exact h.setIndex _
  case rnd => exact h.takeDraw.writeReg _ _
  case drw => exact (h.withVideo _).writeReg _ _
  case ldDtVx | ldStVx => exact { h with }
  case ldB | storeRegs => exact h.storeBytes _ _
  case loadRegs => exact h.loadThrough _

theorem step_legal {t : State} (hs : step s = .next t) : t.Legal := by
  obtain ⟨_, i, _, he⟩ := step_eq_next.mp hs
  exact exec_legal h.advancePc he

end

/-- Settles O14: the advance of `pc` keeps the ranges, and so does each instruction, whose meaning is an operation that
keeps them. -/
theorem stepKeepsLegal : Obligations.StepKeepsLegal := fun _ _ h hs => step_legal h hs

/-! ### Reset and the Initializer -/

theorem reset_legal : State.reset.Legal := ⟨by decide, by decide, by decide, by decide, by decide⟩

theorem loadedState_legal (glyphs : Vector Byte 80) (rom : List Byte) (r : RandomSource) :
    (loadedState glyphs rom r).Legal :=
  ((reset_legal.withSource r).storeBytes _ _).storeBytes _ _

/-- A state that the Initializer answers is the loaded one. -/
theorem eq_loadedState_of_initialise {glyphs : Vector Byte 80} {rom : List Byte} {r : RandomSource} {t : State}
    (h : initialise glyphs rom r = .next t) : t = loadedState glyphs rom r := by
  unfold initialise at h
  split at h
  · exact (Host.Outcome.next.inj h).symm
  · cases h

/-- Settles O13: the state after reset is legal with any source, and loading is two stores of bytes. -/
theorem resetIsLegal : Obligations.ResetIsLegal :=
  ⟨reset_legal,
    fun glyphs rom r _ h => eq_loadedState_of_initialise h ▸ loadedState_legal glyphs rom r⟩

/-! ### Calls -/

/-- A call ends well exactly if its batch does. -/
theorem runCycle_eq_ok {n : Nat} {s t : State} :
    runCycle n s = .ok t ↔ ∃ u, runBatch n s = .ok u ∧ t = decayTimers u := by
  unfold runCycle
  cases runBatch n s <;> simp [eq_comm]

/-- A call that stops leaves what its batch leaves. -/
theorem runCycle_eq_error {n : Nat} {s t : State} {f : Fault} :
    runCycle n s = .error f t ↔ runBatch n s = .error f t := by
  unfold runCycle
  cases runBatch n s <;> simp

/-- No instruction is refused, and a fetch that stops is a fault. -/
theorem step_ne_refused (s : State) (r : Refusal) : step s ≠ .refused r := by
  intro h
  cases hf : s.fault with
  | some e => cases (step_of_marked hf).symm.trans h
  | none =>
    obtain ⟨t, ht⟩ | ht := step_next_or_invalidOpcode hf
    · cases ht.symm.trans h
    · cases ht.symm.trans h

/-- All that a batch which stops has done: some steps, fewer than n, and then the step that stops. -/
theorem runBatch_eq_error {n : Nat} {s t : State} {f : Fault} : runBatch n s = .error f t ↔
    ∃ k < n, ∃ u, runBatch k s = .ok u ∧ step u = .fault f ∧ t = leftBehind f u := by
  induction n generalizing s with
  | zero => simp [runBatch]
  | succ n ih =>
    cases hs : step s with
    | next v =>
      rw [runBatch_succ_next hs, ih]
      constructor
      · rintro ⟨k, hk, u, hu, hrest⟩
        exact ⟨k + 1, by omega, u, (runBatch_succ_next hs).trans hu, hrest⟩
      · rintro ⟨_ | k, hk, u, hu, hf, ht⟩
        · cases hu
          cases hs.symm.trans hf
        · exact ⟨k, by omega, u, (runBatch_succ_next hs).symm.trans hu, hf, ht⟩
    | fault g =>
      rw [runBatch_succ_fault hs]
      constructor
      · intro h
        cases h
        exact ⟨0, by omega, s, rfl, hs, rfl⟩
      · rintro ⟨_ | k, hk, u, hu, hf, ht⟩
        · cases hu
          cases hs.symm.trans hf
          rw [ht]
        · rw [runBatch_succ_fault hs] at hu
          cases hu
    | refused r => exact absurd hs (step_ne_refused s r)

/-- A property that every step, every stop and the decay of the timers keep holds after every call, however it ends. -/
theorem runCycle_induction {P : State → Prop} (hstep : ∀ s t, P s → step s = .next t → P t)
    (hleft : ∀ f s, P s → P (leftBehind f s)) (hdecay : ∀ s, P s → P (decayTimers s)) {n : Nat} {s : State}
    (hs : P s) :
    (∀ t, runCycle n s = .ok t → P t) ∧ ∀ f t, runCycle n s = .error f t → P t := by
  constructor
  · intro t h
    obtain ⟨u, hu, rfl⟩ := runCycle_eq_ok.mp h
    exact hdecay u (runBatch_ok_induction hstep hs hu)
  · intro f t h
    obtain ⟨_, _, u, hu, _, rfl⟩ := runBatch_eq_error.mp (runCycle_eq_error.mp h)
    exact hleft f u (runBatch_ok_induction hstep hs hu)

/-- Settles O15: the legal ranges are kept by every step, by the stop and by the decay. -/
theorem runCycleKeepsLegal : Obligations.RunCycleKeepsLegal := fun _ _ hs =>
  runCycle_induction (fun _ _ h => step_legal h) (fun f _ h => h.leftBehind f) (fun _ h => h.decayTimers) hs

end Sys2Proof.Machine
end

section
/-! PROOFS, 40_fetch section 3: what each instruction leaves unchanged (R106), and the rules that name the only writers
of a piece of state (R22, R31, R33, R53). -/

namespace Sys2Proof.Machine

/-! ### Frames of the operations that instructions are made of -/

theorem rewindPc_frame (s : State) : SameOutside (fun it => it = .pc) s (rewindPc s) := setPc_frame _ s

theorem popPc_frame (s : State) : SameOutside (fun it => it = .pc ∨ it = .sp) s (popPc s) := by
  intro it h
  cases it <;> simp_all [Item.Same]

theorem pushPc_frame (s : State) : SameOutside (fun it => it = .sp ∨ it = .slot (slotOf s.sp)) s (pushPc s) := by
  intro it h
  cases it <;> simp_all [Item.Same, readSlot_pushPc]

theorem setDelay_frame (b : Byte) (s : State) : SameOutside (fun it => it = .delayTimer) s (setDelay b s) := by
  intro it h
  cases it <;> simp_all [Item.Same]

theorem setSound_frame (b : Byte) (s : State) : SameOutside (fun it => it = .soundTimer) s (setSound b s) := by
  intro it h
  cases it <;> simp_all [Item.Same]

/-- The framebuffer replaced: only the rows that differ change. -/
theorem withVideo_frame {written : Fin 32 → Prop} {video : Vector Row 32} {s : State}
    (hsame : ∀ r, ¬ written r → video[r.val] = s.video[r.val]) :
    SameOutside (fun it => ∃ r, it = .row r ∧ written r) s { s with video := video } := by
  intro it h
  cases it
  case row r => exact hsame r fun hr => h ⟨r, rfl, hr⟩
  all_goals rfl

/-- `CALL` pushes and jumps. -/
theorem pushPc_setPc_frame (n : Nat) (s : State) :
    SameOutside (fun it => it = .pc ∨ it = .sp ∨ it = .slot (slotOf s.sp)) s (setPc n (pushPc s)) :=
  ((pushPc_frame s).mono fun _ => .inr).trans ((setPc_frame n _).mono fun _ => .inl)

/-! ### `DRW` -/

/-- The canvas after the n rows of a `DRW Vx, Vy, n` (44_display R191). -/
def drawnCanvas (x y : Reg) (n : Nat) (s : State) : Canvas :=
  drawRows s (anchorCol s x) (anchorRow s y) n ⟨s.video, false⟩

/-- The state after it. -/
def drawnState (x y : Reg) (n : Nat) (s : State) : State :=
  writeReg VF (boolByte (drawnCanvas x y n s).hit) { s with video := (drawnCanvas x y n s).video }

theorem exec_drw (x y : Reg) (n : Nat) (s : State) : exec (.drw x y n) s = .next (drawnState x y n s) := rfl

theorem drawnState_frame (x y : Reg) (n : Nat) (s : State) :
    SameOutside (fun it => it = .reg VF ∨ ∃ r, it = .row r ∧ InSprite s y n r) s (drawnState x y n s) := by
  have hrows : SameOutside (fun it => ∃ r, it = .row r ∧ InSprite s y n r) s
      { s with video := (drawnCanvas x y n s).video } :=
    withVideo_frame fun r hr => drawRows_video_miss _ _ _ _ _ _ fun i hi he => hr ⟨i, hi, he⟩
  exact (hrows.mono fun _ => .inr).trans ((writeReg_frame VF _ _).mono fun _ => .inl)

/-! ### Instructions -/

@[simp] theorem regsThrough_length (x : Reg) (s : State) : (regsThrough x s).length = x.val + 1 := by
  simp only [regsThrough, List.length_take, Vector.length_toList]
  omega

theorem exec_frame {i : Instr} {s t : State} (he : exec i s = .next t) : SameOutside (Writes s i) s t := by
  cases i
  case ldVxK x =>
    obtain ⟨k, rfl⟩ | rfl := exec_ldVxK_cases he
    · exact (writeReg_frame x _ s).mono fun _ => .inl
    · exact (rewindPc_frame s).mono fun _ => .inr
  all_goals cases he
  case cls =>
    have hall := withVideo_frame (written := fun _ => True) (video := Vector.replicate 32 0) (s := s)
      fun _ h => absurd trivial h
    exact hall.mono fun _ ⟨r, hr, _⟩ => ⟨r, hr⟩
  case ret => exact popPc_frame s
  case jp | jpV0 => exact setPc_frame _ s
  case call => exact pushPc_setPc_frame _ s
  case seImm | sneImm | seReg | sneReg | skp | sknp => exact skipIf_frame _ s
  case ldImm | addImm | ldReg | orReg | andReg | xorReg | ldVxDt => exact writeReg_frame _ _ s
  case addReg | sub | shr | subn | shl => exact writeResultAndFlag_frame _ _ _ s
  case ldI | addI | ldF => exact setIndex_frame _ s
  case rnd =>
    exact ((takeDraw_frame s).mono fun _ => .inr).trans ((writeReg_frame _ _ _).mono fun _ => .inl)
  case drw => exact drawnState_frame _ _ _ s
  case ldDtVx => exact setDelay_frame _ s
  case ldStVx => exact setSound_frame _ s
  case ldB => exact storeBytes_frame (bcdDigits _) s
  case storeRegs x =>
    refine (storeBytes_frame _ s).mono fun it h => ?_
    rwa [regsThrough_length] at h
  case loadRegs => exact loadThrough_frame _ s

/-- Settles O12: an instruction is one operation, or two, and writes what the operations write. -/
theorem instructionsWriteOnlyWhatTheirRuleNames : Obligations.InstructionsWriteOnlyWhatTheirRuleNames :=
  fun _ _ _ => exec_frame

/-! ### Whose rule names a piece of state as written -/

section
variable {i : Instr} {s : State}

theorem cls_or_drw_of_writes_row {r : Fin 32} (hw : Writes s i (.row r)) : i = .cls ∨ ∃ x y n, i = .drw x y n := by
  cases i
  case cls => exact .inl rfl
  case drw x y n => exact .inr ⟨x, y, n, rfl⟩
  all_goals simp [Writes] at hw

theorem ldDtVx_of_writes_delayTimer (hw : Writes s i .delayTimer) : ∃ x, i = .ldDtVx x := by
  cases i
  case ldDtVx x => exact ⟨x, rfl⟩
  all_goals simp [Writes] at hw

theorem ldStVx_of_writes_soundTimer (hw : Writes s i .soundTimer) : ∃ x, i = .ldStVx x := by
  cases i
  case ldStVx x => exact ⟨x, rfl⟩
  all_goals simp [Writes] at hw

theorem rnd_of_writes_source (hw : Writes s i .source) : ∃ x nn, i = .rnd x nn := by
  cases i
  case rnd x nn => exact ⟨x, nn, rfl⟩
  all_goals simp [Writes] at hw

/-- The keys are the host's (10_state R34). -/
theorem not_writes_key (k : Key) : ¬ Writes s i (.key k) := by
  intro hw
  cases i
  all_goals simp [Writes] at hw

theorem writesFlag_or_namesVF_of_writes_VF (hw : Writes s i (.reg VF)) : WritesFlag i ∨ NamesVF i := by
  cases i
  case addReg | sub | shr | subn | shl | drw => exact .inl trivial
  case ldImm | addImm | ldReg | orReg | andReg | xorReg | ldVxDt => exact .inr (Item.reg.inj hw).symm
  case rnd | ldVxK =>
    obtain hx | hother := hw
    · exact .inr (Item.reg.inj hx).symm
    · cases hother
  case loadRegs x =>
    obtain ⟨y, hy, hle⟩ := hw
    cases hy
    exact .inr (Fin.le_antisymm (Fin.le_last x) hle)
  all_goals simp [Writes] at hw

end

/-! ### The only writers of a piece of state -/

theorem skipIf_mem (c : Bool) (s : State) : (skipIf c s).mem = s.mem := by cases c <;> rfl

section
variable {i : Instr} {s t : State} (he : exec i s = .next t)
include he

/-- What an instruction changes, its rule names as written. -/
theorem writes_of_exec_changes {it : Item} (h : ¬ it.Same s t) : Writes s i it := by
  by_contra hw
  exact h (exec_frame he it hw)

theorem exec_mem_eq (h : ¬ ∃ x, i = .ldB x ∨ i = .storeRegs x) : t.mem = s.mem := by
  cases i
  case ldB x | storeRegs x => exact absurd ⟨x, by simp⟩ h
  case ldVxK x =>
    obtain ⟨k, rfl⟩ | rfl := exec_ldVxK_cases he
    · rfl
    · rfl
  all_goals cases he
  case addReg | sub | shr | subn | shl => rw [writeResultAndFlag_eq]
  case seImm | sneImm | seReg | sneReg | skp | sknp => exact skipIf_mem _ _
  case loadRegs => exact loadThrough_mem _ _
  all_goals rfl

end

/-- Two framebuffers that differ do so in a row. -/
theorem exists_row_ne {s t : State} (h : t.video ≠ s.video) : ∃ r, ¬ (Item.row r).Same s t := by
  by_contra hall
  push Not at hall
  exact h (Vector.ext fun k hk => hall ⟨k, hk⟩)

/-- Settles O16: some row differs, and only these two rules name a row. -/
theorem onlyDisplayInstructionsChangeVideo : Obligations.OnlyDisplayInstructionsChangeVideo := by
  intro i s t he hne
  obtain ⟨r, hr⟩ := exists_row_ne hne
  exact cls_or_drw_of_writes_row (writes_of_exec_changes he hr)

/-- Settles O17: only the two stores write memory at all. -/
theorem onlyStoresChangeMemory : Obligations.OnlyStoresChangeMemory := by
  intro i s t he hne
  by_contra h
  exact hne (exec_mem_eq he h)

/-- Settles O19: only these two rules name a timer. -/
theorem timersChangeOnlyByTheirLoads : Obligations.TimersChangeOnlyByTheirLoads := by
  intro i s t he
  constructor
  · intro hne
    exact ldDtVx_of_writes_delayTimer (writes_of_exec_changes he hne)
  · intro hne
    exact ldStVx_of_writes_soundTimer (writes_of_exec_changes he hne)

/-! ### VF -/

theorem boolByte_eq_zero_or_one (c : Bool) : boolByte c = 0 ∨ boolByte c = 1 := by
  cases c
  · exact .inl rfl
  · exact .inr rfl

/-- The shared write leaves a flag in VF, or the result where x is 15 and the result is written last (42_alu R141). -/
theorem readReg_writeResultAndFlag_VF (x : Reg) (r : Byte) (f : Bool) (s : State) :
    readReg (writeResultAndFlag x r f s) VF = boolByte f ∨ (x = VF ∧ Config.vfWriteOrder = .resultLast) := by
  rw [readReg_writeResultAndFlag, if_pos rfl]
  split
  · cases Config.vfWriteOrder
    · exact .inl rfl
    · exact .inr ⟨‹_›, rfl⟩
  · exact .inl rfl

theorem flag_of_writesFlag {i : Instr} (hi : WritesFlag i) (s : State) : ∃ (t : State) (f : Bool),
    exec i s = .next t ∧ (readReg t VF = boolByte f ∨ (NamesVF i ∧ Config.vfWriteOrder = .resultLast)) := by
  cases i
  case addReg | sub | shr | subn | shl => exact ⟨_, _, rfl, readReg_writeResultAndFlag_VF _ _ _ s⟩
  case drw => exact ⟨_, _, rfl, .inl (readReg_writeReg_same _ _ _)⟩
  all_goals exact hi.elim

/-- Settles O18: the rules that name VF are those of the two kinds, and the flag that the six write is a Boolean. -/
theorem flagRegisterHasItsWriters : Obligations.FlagRegisterHasItsWriters := by
  constructor
  · intro i s t he hne
    exact writesFlag_or_namesVF_of_writes_VF (writes_of_exec_changes he hne)
  · intro i s hi
    obtain ⟨t, f, he, hflag | hlast⟩ := flag_of_writesFlag hi s
    · exact ⟨t, he, (boolByte_eq_zero_or_one f).imp hflag.trans fun h1 => .inl (hflag.trans h1)⟩
    · exact ⟨t, he, .inr (.inr hlast)⟩

/-! ### The random source -/

section
variable (r : RandomSource) (s : State)

theorem writeResultAndFlag_withSource (x : Reg) (b : Byte) (f : Bool) :
    writeResultAndFlag x b f { s with source := r } = { writeResultAndFlag x b f s with source := r } := by
  unfold writeResultAndFlag writeResultAndFlagBy
  split
  · cases Config.vfWriteOrder <;> rfl
  · rfl

theorem skipIf_withSource (c : Bool) : skipIf c { s with source := r } = { skipIf c s with source := r } := by
  cases c <;> rfl

theorem storeBytes_withSource (a : Nat) (bs : List Byte) :
    storeBytes a bs { s with source := r } = { storeBytes a bs s with source := r } := by
  induction bs generalizing a s with
  | nil => rfl
  | cons b bs ih => exact ih (memWrite a b s) (a + 1)

theorem drawRows_withSource (col row n : Nat) (c : Canvas) :
    drawRows { s with source := r } col row n c = drawRows s col row n c := by
  induction n with
  | zero => rfl
  | succ n ih =>
    simp only [drawRows, ih]
    rfl

theorem drawnState_withSource (x y : Reg) (n : Nat) :
    drawnState x y n { s with source := r } = { drawnState x y n s with source := r } := by
  have hcanvas : drawnCanvas x y n { s with source := r } = drawnCanvas x y n s := drawRows_withSource r s _ _ _ _
  rw [drawnState, hcanvas]
  rfl

end

theorem exec_withSource {i : Instr} {s t : State} (r : RandomSource) (hi : ∀ x nn, i ≠ .rnd x nn)
    (he : exec i s = .next t) : exec i { s with source := r } = .next { t with source := r } := by
  cases i
  case rnd x nn => exact absurd rfl (hi x nn)
  case ldVxK x =>
    cases hk : lowestKey s with
    | some k =>
      rw [exec_ldVxK_of_some x hk] at he
      cases he
      exact exec_ldVxK_of_some x (s := { s with source := r }) hk
    | none =>
      rw [exec_ldVxK_of_none x hk] at he
      cases he
      exact exec_ldVxK_of_none x (s := { s with source := r }) hk
  all_goals cases he
  case addReg | sub | shr | subn | shl => exact congrArg _ (writeResultAndFlag_withSource r s _ _ _)
  case seImm | sneImm | seReg | sneReg | skp | sknp => exact congrArg _ (skipIf_withSource r s _)
  case ldB | storeRegs => exact congrArg _ (storeBytes_withSource r s _ _)
  case drw => exact congrArg _ (drawnState_withSource r s _ _ _)
  all_goals rfl

theorem exec_source {i : Instr} {s t : State} (hi : ∀ x nn, i ≠ .rnd x nn) (he : exec i s = .next t) :
    t.source = s.source := by
  refine exec_frame he .source fun hw => ?_
  obtain ⟨x, nn, hrnd⟩ := rnd_of_writes_source hw
  exact hi x nn hrnd

/-- Settles O56: no other operation than a draw reads or writes the source. -/
theorem onlyRndReadsTheSource : Obligations.OnlyRndReadsTheSource :=
  fun _ _ _ r hi he => ⟨exec_withSource r hi he, exec_source hi he⟩

/-! ### The keys -/

theorem exec_keypad {i : Instr} {s t : State} (he : exec i s = .next t) : t.keypad = s.keypad :=
  Vector.ext fun k hk => exec_frame he (.key ⟨k, hk⟩) (not_writes_key _)

theorem step_keypad {s t : State} (hs : step s = .next t) : t.keypad = s.keypad := by
  obtain ⟨_, i, _, he⟩ := step_eq_next.mp hs
  exact exec_keypad (s := advancePc s) he

theorem leftBehind_keypad (f : Fault) (s : State) : (leftBehind f s).keypad = s.keypad := by cases f <;> rfl

/-- Settles O50: no rule names a key as written, and neither a stop nor the decay touches the keys. -/
theorem keypadIsConstantThroughACall : Obligations.KeypadIsConstantThroughACall := fun _ s =>
  runCycle_induction (P := fun t => t.keypad = s.keypad) (fun _ _ h hs => (step_keypad hs).trans h)
    (fun f t h => (leftBehind_keypad f t).trans h) (fun _ h => h) rfl

end Sys2Proof.Machine
end

section
/-! PROOFS, 20_memory and 43_index_memory: reads after writes, and the instructions over I and memory (R53, R170 to
R177). -/

namespace Sys2Proof.Machine

/-- Settles O7: the address written is the one whose reduced address is the same. -/
theorem readAfterWrite : Obligations.ReadAfterWrite := by
  intro s a v hwf
  refine ⟨memWrite_wf a v hwf, fun c => ?_⟩
  split
  case isTrue hc => exact memRead_memWrite_same a v hwf hc
  case isFalse hc => exact memRead_memWrite_ne s v hc

/-! ### I -/

/-- Settles O35: the three instructions are one write of I, of an address, a sum and a sum, each modulo 4096. -/
theorem indexWrites : Obligations.IndexWrites := by
  intro x nnn s
  refine ⟨⟨_, rfl, ?_, setIndex_frame _ s⟩, ⟨_, rfl, wrapAddr_toNat _, setIndex_frame _ s⟩,
    ⟨_, rfl, wrapAddr_toNat _, setIndex_frame _ s⟩⟩
  exact (wrapAddr_toNat _).trans (Nat.mod_eq_of_lt nnn.isLt)

/-! ### Bytes stored at I -/

/-- Byte k of a run stored at I reads back at `I + k` (R175). -/
theorem memRead_storeBytes_indexed {s : State} (hwf : s.mem.wf = true) (bs : List Byte) (hlen : bs.length ≤ 4096)
    {k : Nat} (hk : k < bs.length) : memRead (storeBytes (indexed s 0) bs s) (s.index.toNat + k) = bs[k] :=
  memRead_storeBytes_same _ bs hwf hlen hk rfl

theorem digit_toNat {n : Nat} (h : n < 10) : (BitVec.ofNat 8 n).toNat = n := by
  rw [BitVec.toNat_ofNat]
  omega

/-- Settles O36: the three digits are stored as a run from I, and a byte is below 1000. -/
theorem bcdStoresThreeDigits : Obligations.BcdStoresThreeDigits := by
  intro x s
  refine ⟨_, rfl, fun hwf => ?_, storeBytes_frame (bcdDigits (readReg s x)) s⟩
  have hread {k : Nat} (hk : k < 3) := memRead_storeBytes_indexed hwf (bcdDigits (readReg s x)) (by simp [bcdDigits]) hk
  have hlt := (readReg s x).isLt
  refine ⟨_, _, _, hread (k := 0) (by decide), hread (k := 1) (by decide), hread (k := 2) (by decide), ?_⟩
  simp only [bcdDigits, List.getElem_cons_zero, List.getElem_cons_succ]
  rw [digit_toNat (by omega), digit_toNat (by omega), digit_toNat (by omega)]
  omega

theorem lt_regsThrough_length {x k : Reg} (s : State) (hk : k ≤ x) : k.val < (regsThrough x s).length := by
  rw [regsThrough_length]
  exact Nat.lt_succ_of_le hk

theorem regsThrough_getElem {x k : Reg} (s : State) (hk : k ≤ x) :
    (regsThrough x s)[k.val]'(lt_regsThrough_length s hk) = readReg s k := by
  simp only [regsThrough, List.getElem_take, Vector.getElem_toList, readReg]

/-- After `LD [I], Vx` the byte at `I + k` is Vk (R176). -/
theorem memRead_storeRegs {x k : Reg} {s : State} (hwf : s.mem.wf = true) (hk : k ≤ x) :
    memRead (storeBytes (indexed s 0) (regsThrough x s) s) (s.index.toNat + k.val) = readReg s k := by
  have hlen := regsThrough_length x s
  rw [memRead_storeBytes_indexed hwf _ (by omega) (lt_regsThrough_length s hk), regsThrough_getElem s hk]

/-- Settles O37: V0 to Vx are stored as a run from I. -/
theorem storeRegistersThroughVx : Obligations.StoreRegistersThroughVx := by
  intro x s
  have he : exec (.storeRegs x) s = .next (storeBytes (indexed s 0) (regsThrough x s) s) := rfl
  exact ⟨_, he, fun hwf k hk => memRead_storeRegs hwf hk, exec_frame he⟩

/-- Settles O38: each register is loaded from its own address, or kept. -/
theorem loadRegistersThroughVx : Obligations.LoadRegistersThroughVx := by
  intro x s
  refine ⟨_, rfl, fun k hk => ?_, loadThrough_frame x s⟩
  rw [readReg_loadThrough, if_pos hk]
  rfl

/-- Settles O39: a fetch reads the bytes at `I + k` and `I + (k + 1)`, which hold Vk and the next register. -/
theorem storedBytesAreFetched : Obligations.StoredBytesAreFetched := by
  intro x k j s t hwf he hj hjx
  cases he
  have hkx : k ≤ x := Nat.le_trans (hj ▸ Nat.le_succ _) hjx
  rw [fetchWord, wordOfBytes_toNat, memRead_storeRegs hwf hkx, Nat.add_assoc, ← hj,
    memRead_storeRegs hwf hjx]

end Sys2Proof.Machine
end

section
/-! PROOFS, 42_alu: results and flags (R140 to R152). -/

namespace Sys2Proof.Machine

/-- Settles O30: each is one write of Vx. -/
theorem byteLoadAndAdd : Obligations.ByteLoadAndAdd := by
  intro x nn s
  refine ⟨⟨_, rfl, readReg_writeReg_same x _ s, writeReg_frame x _ s⟩, ⟨_, rfl, ?_, writeReg_frame x _ s⟩⟩
  rw [readReg_writeReg_same, BitVec.toNat_add]

/-- Settles O31: each is one write of Vx, of a word operation on the two registers. -/
theorem copyAndBitwise : Obligations.CopyAndBitwise := by
  intro x y s
  refine ⟨⟨_, rfl, readReg_writeReg_same x _ s, writeReg_frame x _ s⟩,
    ⟨_, rfl, fun k => ?_, writeReg_frame x _ s⟩, ⟨_, rfl, fun k => ?_, writeReg_frame x _ s⟩,
    ⟨_, rfl, fun k => ?_, writeReg_frame x _ s⟩⟩
  · rw [readReg_writeReg_same, BitVec.getLsbD_or]
  · rw [readReg_writeReg_same, BitVec.getLsbD_and]
  · rw [readReg_writeReg_same, BitVec.getLsbD_xor]

/-! ### Results and flags as numbers -/

section
variable (a b : Byte)

theorem add_eq_ofNat : a + b = BitVec.ofNat 8 ((a.toNat + b.toNat) % 256) := by
  apply BitVec.eq_of_toNat_eq
  simp

theorem sub_eq_ofNat : a - b = BitVec.ofNat 8 ((256 + a.toNat - b.toNat) % 256) := by
  have := b.isLt
  apply BitVec.eq_of_toNat_eq
  rw [BitVec.toNat_sub, BitVec.toNat_ofNat]
  omega

theorem shr_eq_ofNat : a >>> 1 = BitVec.ofNat 8 (a.toNat / 2) := by
  have := a.isLt
  apply BitVec.eq_of_toNat_eq
  rw [BitVec.toNat_ushiftRight, BitVec.toNat_ofNat, Nat.shiftRight_eq_div_pow]
  omega

theorem shl_eq_ofNat : a <<< 1 = BitVec.ofNat 8 (a.toNat * 2 % 256) := by
  apply BitVec.eq_of_toNat_eq
  rw [BitVec.toNat_shiftLeft, BitVec.toNat_ofNat, Nat.shiftLeft_eq]
  omega

theorem boolByte_decide (p : Prop) [Decidable p] : boolByte (decide p) = if p then 1 else 0 := by
  by_cases h : p <;> simp [boolByte, h]

/-- A flag that is a bit of a number, as a byte. -/
theorem boolByte_decide_eq_one {n : Nat} (h : n < 2) : boolByte (decide (n = 1)) = BitVec.ofNat 8 n := by
  obtain rfl | rfl : n = 0 ∨ n = 1 := by omega
  · rfl
  · rfl

theorem boolByte_carryFlag : boolByte (carryFlag a b) = if 255 < a.toNat + b.toNat then 1 else 0 :=
  boolByte_decide _

theorem boolByte_noBorrowFlag : boolByte (noBorrowFlag a b) = if a.toNat > b.toNat then 1 else 0 :=
  boolByte_decide _

theorem boolByte_shrFlag : boolByte (shrFlag a) = BitVec.ofNat 8 (a.toNat % 2) := by
  rw [shrFlag, BitVec.getLsbD, Nat.testBit_zero, boolByte_decide_eq_one (Nat.mod_lt _ (by decide))]

theorem boolByte_shlFlag : boolByte (shlFlag a) = BitVec.ofNat 8 (a.toNat / 128) := by
  have hbit : a.toNat / 2 ^ 7 % 2 = a.toNat / 128 := by
    have := a.isLt
    omega
  rw [shlFlag, BitVec.getLsbD, Nat.testBit_eq_decide_div_mod_eq, boolByte_decide_eq_one (Nat.mod_lt _ (by decide)),
    hbit]

end

/-! ### The flag-writing instructions -/

/-- The shared write leaves the result and the flag where the rule wants them (R141). -/
theorem resultAndFlag_writeResultAndFlag (x : Reg) (r : Byte) (f : Bool) (s : State) :
    ResultAndFlag x r (boolByte f) (writeResultAndFlag x r f s) := by
  have hread (y : Reg) := readReg_writeResultAndFlag x y r f s
  by_cases hx : x = VF
  · exact (if_pos hx).mpr ((hread VF).trans ((if_pos rfl).trans (if_pos hx)))
  · have hx' : ¬ x = VF := hx
    exact (if_neg hx).mpr ⟨(hread x).trans ((if_neg hx').trans (if_pos rfl)),
      (hread VF).trans ((if_pos rfl).trans (if_neg hx'))⟩

/-- What a flag-writing instruction answers, with the result and the flag written as the rule writes them. -/
theorem writeResultAndFlag_spec (x : Reg) {r r' f' : Byte} {f : Bool} (s : State) (hr : r = r') (hf : boolByte f = f') :
    ResultAndFlag x r' f' (writeResultAndFlag x r f s) ∧
    SameOutside (fun it => it = .reg x ∨ it = .reg VF) s (writeResultAndFlag x r f s) := by
  subst hr hf
  exact ⟨resultAndFlag_writeResultAndFlag x r f s, writeResultAndFlag_frame x r f s⟩

/-- Settles O32: the operands are read from s, so for y = 15 VF is the one from before the write. -/
theorem addSetsCarry : Obligations.AddSetsCarry := fun x _ s =>
  ⟨_, rfl, writeResultAndFlag_spec x s (add_eq_ofNat _ _) (boolByte_carryFlag _ _)⟩

/-- Settles O33: `SUBN` is `SUB` with the operands exchanged. -/
theorem subtractionsSetNoBorrow : Obligations.SubtractionsSetNoBorrow := fun x _ s =>
  ⟨⟨_, rfl, writeResultAndFlag_spec x s (sub_eq_ofNat _ _) (boolByte_noBorrowFlag _ _)⟩,
    ⟨_, rfl, writeResultAndFlag_spec x s (sub_eq_ofNat _ _) (boolByte_noBorrowFlag _ _)⟩⟩

/-- Settles O34: the bit moved out is the remainder by 2, or the quotient by 128. -/
theorem shiftsMoveOneBitOut : Obligations.ShiftsMoveOneBitOut := fun x _ s =>
  ⟨⟨_, rfl, writeResultAndFlag_spec x s (shr_eq_ofNat _) (boolByte_shrFlag _)⟩,
    ⟨_, rfl, writeResultAndFlag_spec x s (shl_eq_ofNat _) (boolByte_shlFlag _)⟩⟩

end Sys2Proof.Machine
end

section
/-! PROOFS, 41_control_flow: jumps, skips, calls and returns (R120 to R129; 10_state R29). -/

namespace Sys2Proof.Machine

theorem wrapAddr_address (nnn : BitVec 12) : (wrapAddr nnn.toNat).toNat = nnn.toNat := by
  rw [wrapAddr_toNat, Nat.mod_eq_of_lt nnn.isLt]

/-- Settles O24: an address is below 4096, and the sum is reduced. -/
theorem jumpsSetPc : Obligations.JumpsSetPc := fun nnn s =>
  ⟨⟨_, rfl, wrapAddr_address nnn, setPc_frame _ s⟩, ⟨_, rfl, wrapAddr_toNat _, setPc_frame _ s⟩⟩

/-! ### Skips -/

/-- A skip goes on by 2 exactly where its condition holds (R123). -/
theorem skipIf_spec {c : Bool} {p : Prop} [Decidable p] (s : State) (h : c = true ↔ p) :
    SameOutside (fun it => it = .pc) s (skipIf c s) ∧
    if p then (skipIf c s).pc.toNat = (s.pc.toNat + 2) % 4096 else (skipIf c s).pc = s.pc := by
  refine ⟨skipIf_frame c s, ?_⟩
  split
  case isTrue hp =>
    rw [h.mpr hp]
    exact wrapAddr_toNat _
  case isFalse hp =>
    rw [eq_false_of_ne_true (mt h.mp hp)]
    rfl

theorem beq_iff_toNat_eq (a b : Byte) : (a == b) = true ↔ a.toNat = b.toNat :=
  beq_iff_eq.trans BitVec.toNat_inj.symm

theorem bne_iff_toNat_ne (a b : Byte) : (a != b) = true ↔ a.toNat ≠ b.toNat :=
  bne_iff_ne.trans (not_congr BitVec.toNat_inj.symm)

/-- Settles O28. Both are the skip, with the comparison and its negation. -/
theorem skipsOnAByte : Obligations.SkipsOnAByte := fun _ _ s =>
  ⟨⟨_, rfl, skipIf_spec s (beq_iff_toNat_eq _ _)⟩, ⟨_, rfl, skipIf_spec s (bne_iff_toNat_ne _ _)⟩⟩

/-- Settles O29: the skip again, on two registers. -/
theorem skipsOnARegister : Obligations.SkipsOnARegister := fun _ _ s =>
  ⟨⟨_, rfl, skipIf_spec s (beq_iff_toNat_eq _ _)⟩, ⟨_, rfl, skipIf_spec s (bne_iff_toNat_ne _ _)⟩⟩

/-! ### Calls and returns -/

/-- A slot number is the slot of a stack pointer exactly if it is its value modulo 16. -/
theorem eq_slotOf_iff {k : Fin 16} {sp : Byte} : k = slotOf sp ↔ k.val = sp.toNat % 16 := Fin.ext_iff

/-- Settles O23: `popPc` reads the slot that the new stack pointer names. -/
theorem retPopsTheStack : Obligations.RetPopsTheStack := by
  intro s
  refine ⟨popPc s, rfl, prevSp_toNat s.sp, fun k hk => ?_, popPc_frame s⟩
  have hslot : k = slotOf (prevSp s.sp) := by
    rw [eq_slotOf_iff, prevSp_toNat, hk, Nat.mod_mod]
  rw [popPc_pc, wrapAddr_toNat, ← hslot]

/-- The frame of `CALL`, with the slot named as a number. -/
theorem call_frame (nnn : BitVec 12) (s : State) :
    SameOutside (fun it => it = .pc ∨ it = .sp ∨ ∃ k : Fin 16, it = .slot k ∧ k.val = s.sp.toNat % 16) s
      (setPc nnn.toNat (pushPc s)) :=
  (pushPc_setPc_frame _ s).mono fun _ h => h.imp_right (·.imp_right fun hk => ⟨_, hk, rfl⟩)

/-- Settles O25: `CALL` is a push and a jump. -/
theorem callPushesTheReturnAddress : Obligations.CallPushesTheReturnAddress := by
  intro nnn s
  refine ⟨setPc nnn.toNat (pushPc s), rfl, wrapAddr_address nnn, nextSp_toNat s.sp, fun k hk => ?_,
    call_frame nnn s⟩
  rw [readSlot_setPc, readSlot_pushPc, if_pos (eq_slotOf_iff.mpr hk)]

/-- A pop finds what the push before it stored. -/
theorem popPc_pc_after_call (nnn : BitVec 12) (s : State) :
    (popPc (advancePc (setPc nnn.toNat (pushPc s)))).pc = wrapAddr s.pc.toNat := by
  simp only [popPc_pc, advancePc_sp, setPc_sp, pushPc_sp, readSlot_advancePc, readSlot_setPc, prevSp_nextSp_slot,
    readSlot_pushPc, if_true]

theorem prevSp_nextSp_toNat (sp : Byte) : (prevSp (nextSp sp)).toNat = sp.toNat % 16 := by
  rw [prevSp_toNat, nextSp_toNat]
  omega

/-- Settles O26: the pop takes the slot that the push wrote, from every stack pointer. -/
theorem returnComesBackFromCall : Obligations.ReturnComesBackFromCall := by
  intro nnn s
  refine ⟨setPc nnn.toNat (pushPc s), popPc (advancePc (setPc nnn.toNat (pushPc s))), rfl, rfl, ?_,
    prevSp_nextSp_toNat s.sp, ?_⟩
  · rw [popPc_pc_after_call, wrapAddr_toNat]
  · have hret : SameOutside (fun it => it = .pc ∨ it = .sp) (setPc nnn.toNat (pushPc s))
        (popPc (advancePc (setPc nnn.toNat (pushPc s)))) :=
      ((advancePc_frame _).mono fun _ => .inl).trans (popPc_frame _)
    exact (call_frame nnn s).trans (hret.mono fun _ h => h.imp_right .inl)

/-! ### Nested calls -/

/-- The state after k nested calls, each fetched at the address the one before it jumped to. -/
def afterCalls (target : Nat → BitVec 12) (s : State) : Nat → State
  | 0 => s
  | k + 1 => setPc (target k).toNat (pushPc (advancePc (afterCalls target s k)))

section
variable (target : Nat → BitVec 12) (s : State)

theorem afterCalls_succ_sp (k : Nat) :
    (afterCalls target s (k + 1)).sp.toNat = ((afterCalls target s k).sp.toNat + 1) % 16 := nextSp_toNat _

theorem afterCalls_sp (k : Nat) : (afterCalls target s k).sp.toNat % 16 = (s.sp.toNat + k) % 16 := by
  induction k with
  | zero => rfl
  | succ k ih =>
    rw [afterCalls_succ_sp]
    omega

/-- The frame that call k pushes stands until 16 calls later. -/
theorem readSlot_afterCalls {k : Nat} {j : Fin 16} (hj : j.val = (s.sp.toNat + k) % 16) {n : Nat} (hkn : k < n)
    (hn : n ≤ k + 16) : readSlot (afterCalls target s n) j = (advancePc (afterCalls target s k)).pc := by
  induction n, hkn using Nat.le_induction with
  | base =>
    have hslot : j = slotOf (advancePc (afterCalls target s k)).sp := by
      rw [eq_slotOf_iff, advancePc_sp, afterCalls_sp, hj]
    rw [afterCalls, readSlot_setPc, readSlot_pushPc, if_pos hslot]
  | succ n hkn ih =>
    have hslot : j ≠ slotOf (advancePc (afterCalls target s n)).sp := by
      rw [ne_eq, eq_slotOf_iff, advancePc_sp, afterCalls_sp, hj]
      omega
    rw [afterCalls, readSlot_setPc, readSlot_pushPc, if_neg hslot, readSlot_advancePc, ih (by omega)]

end

/-- Settles O27: every call pushes at the slot after the last, and comes to a slot again after 16 calls. -/
theorem seventeenthCallOverwritesTheOldestFrame : Obligations.SeventeenthCallOverwritesTheOldestFrame := by
  intro target s
  refine ⟨afterCalls target s, rfl, fun _ => rfl, ?_, fun k _ hk j hj => ?_⟩
  · have h16 := afterCalls_sp target s 16
    rw [afterCalls_succ_sp]
    omega
  · exact readSlot_afterCalls target s hj (by omega) (by omega)

end Sys2Proof.Machine
end

section
/-! PROOFS, 44_display: the sprite byte in its row, the draw and its collision (R190 to R194). -/

namespace Sys2Proof.Machine

/-- Settles O40: the framebuffer is replaced by dark rows. -/
theorem clsClearsVideo : Obligations.ClsClearsVideo := fun _ =>
  ⟨_, rfl, fun _ => Vector.getElem_replicate _, exec_frame (i := .cls) rfl⟩

/-! ### A sprite byte in a row -/

/-- Before the rotation the byte lies in columns 0 to 7, its bit 7 first. -/
theorem getMsbD_unrotated (b : Byte) (k : Nat) :
    (b.zeroExtend 64 <<< 56).getMsbD k = (decide (k < 8) && b.getLsbD (7 - k)) := by
  rw [BitVec.getMsbD_shiftLeft, BitVec.getMsbD_setWidth, BitVec.getMsbD_eq_getLsbD]
  have hshift : k + 56 + 8 - 64 = k := by omega
  have hlow : 64 - 8 ≤ k + 56 := by omega
  rw [hshift, decide_eq_true hlow, Bool.true_and]

/-- Column k of the placed row is column k - col, modulo 64, of the row before the rotation (R192). -/
theorem getMsbD_spriteRow (b : Byte) (col : Nat) {k : Nat} (hk : k < 64) :
    (spriteRow b col).getMsbD k =
      (decide ((64 + k - col % 64) % 64 < 8) && b.getLsbD (7 - (64 + k - col % 64) % 64)) := by
  rw [← getMsbD_unrotated, spriteRow, BitVec.getMsbD_rotateRight, decide_eq_true hk, Bool.true_and]
  split
  case isTrue hlt => rfl
  case isFalse hge => rw [show (64 + k - col % 64) % 64 = k - col % 64 by omega]

/-- Settles O42: a column is in the sprite exactly if it lies fewer than 8 columns after the anchor, modulo 64. -/
theorem spritePixelsWrapAroundTheRow : Obligations.SpritePixelsWrapAroundTheRow := by
  intro b col
  constructor
  · intro j hj
    have hcol : (64 + (col + j) % 64 - col % 64) % 64 = j := by omega
    rw [getMsbD_spriteRow b col (Nat.mod_lt _ (by decide)), hcol, decide_eq_true hj, Bool.true_and]
  · intro k hk hout
    have hcol : ¬ (64 + k - col % 64) % 64 < 8 := fun h => hout _ h (by omega)
    rw [getMsbD_spriteRow b col hk, decide_eq_false hcol, Bool.false_and]

/-- A placed row is dark only where the byte is 0. -/
theorem spriteRow_eq_zero_iff {b : Byte} {col : Nat} : spriteRow b col = 0 ↔ b = 0 := by
  have hpixel := (spritePixelsWrapAroundTheRow b col).1
  constructor
  · intro h
    refine BitVec.eq_of_getLsbD_eq fun j hj => ?_
    have := hpixel (7 - j) (by omega)
    rw [h, show 7 - (7 - j) = j by omega] at this
    simpa using this.symm
  · rintro rfl
    refine BitVec.eq_of_getMsbD_eq fun k hk => ?_
    rw [getMsbD_spriteRow 0 col hk]
    simp

/-! ### A draw -/

/-- Row i of the sprite that `DRW Vx, Vy, n` draws, placed at its anchor column. -/
def spriteAt (x : Reg) (s : State) (i : Nat) : Row := spriteRow (memRead s (indexed s i)) (anchorCol s x)

section
variable (x y : Reg) {n : Nat} (s : State)

/-- A row that the sprite covers is XORed with the sprite row that goes to it, once. -/
theorem drawnState_video_hit (hn : n ≤ 32) {i : Nat} (hi : i < n) {r : Fin 32}
    (hr : r = targetRow (anchorRow s y) i) :
    (drawnState x y n s).video[r.val] = s.video[r.val] ^^^ spriteAt x s i := by
  subst hr
  exact drawRows_video_hit s _ _ _ hi hn

theorem drawnState_video_miss {r : Fin 32} (hr : ¬ InSprite s y n r) :
    (drawnState x y n s).video[r.val] = s.video[r.val] :=
  drawRows_video_miss _ _ _ _ _ _ fun i hi he => hr ⟨i, hi, he⟩

theorem readReg_drawnState_VF : readReg (drawnState x y n s) VF = boolByte (drawnCanvas x y n s).hit :=
  readReg_writeReg_same _ _ _

theorem drawnCanvas_hit (hn : n ≤ 32) : (drawnCanvas x y n s).hit = true ↔
    ∃ i < n, s.video[(targetRow (anchorRow s y) i).val] &&& spriteAt x s i ≠ 0 := by
  rw [drawnCanvas, drawRows_hit _ _ _ _ hn]
  simp [spriteAt]

/-- The rows meet in a pixel exactly if their XOR has a pixel off that was on (R194). -/
theorem and_ne_zero_iff (a b : Row) :
    a &&& b ≠ 0 ↔ ∃ k < 64, a.getMsbD k = true ∧ (a ^^^ b).getMsbD k = false := by
  have hoff (k : Nat) : a.getMsbD k = true ∧ (a ^^^ b).getMsbD k = false ↔ (a &&& b).getMsbD k = true := by
    cases ha : a.getMsbD k <;> simp [ha]
  simp only [hoff]
  constructor
  · intro hne
    by_contra hall
    push Not at hall
    exact hne (BitVec.eq_of_getMsbD_eq fun k hk => by simpa using hall k hk)
  · rintro ⟨k, _, hk⟩ h0
    simp [h0] at hk

/-- VF reports the pixels of the whole framebuffer that went from on to off (R194). -/
theorem drawnCanvas_hit_iff_pixel (hn : n ≤ 32) : (drawnCanvas x y n s).hit = true ↔
    ∃ r : Fin 32, ∃ k < 64,
      s.video[r.val].getMsbD k = true ∧ (drawnState x y n s).video[r.val].getMsbD k = false := by
  rw [drawnCanvas_hit x y s hn]
  constructor
  · rintro ⟨i, hi, hmeet⟩
    refine ⟨targetRow (anchorRow s y) i, ?_⟩
    rw [drawnState_video_hit x y s hn hi rfl]
    exact (and_ne_zero_iff _ _).mp hmeet
  · rintro ⟨r, k, hk, hon, hoff⟩
    by_cases hr : InSprite s y n r
    · obtain ⟨i, hi, rfl⟩ := hr
      rw [drawnState_video_hit x y s hn hi rfl] at hoff
      exact ⟨i, hi, (and_ne_zero_iff _ _).mpr ⟨k, hk, hon, hoff⟩⟩
    · rw [drawnState_video_miss x y s hr, hon] at hoff
      cases hoff

end

/-- A row is the target of sprite row i exactly if its number is the sum modulo 32. -/
theorem eq_targetRow_iff {r : Fin 32} {row i : Nat} : r = targetRow row i ↔ r.val = (row + i) % 32 := Fin.ext_iff

/-- Settles O41: the anchors are read from s, so they are the ones from before VF is written; n is below the 32 rows, so
no row is met twice. -/
theorem drwXorsTheSpriteAndReportsCollision : Obligations.DrwXorsTheSpriteAndReportsCollision := by
  intro x y n s hn
  have hn' : n ≤ 32 := by omega
  refine ⟨drawnState x y n s, exec_drw x y n s,
    fun i hi r hr => drawnState_video_hit x y s hn' hi (eq_targetRow_iff.mpr hr), ?_, ?_, ?_⟩
  · intro hpixel
    rw [readReg_drawnState_VF, (drawnCanvas_hit_iff_pixel x y s hn').mpr hpixel]
    rfl
  · intro hnone
    rw [readReg_drawnState_VF, eq_false_of_ne_true (mt (drawnCanvas_hit_iff_pixel x y s hn').mp hnone)]
    rfl
  · refine (drawnState_frame x y n s).mono fun it h => h.imp_right ?_
    rintro ⟨r, hit, i, hi, hr⟩
    exact ⟨r, hit, i, hi, eq_targetRow_iff.mp hr⟩

/-! ### The same draw twice -/

section
variable {x y : Reg} (n : Nat) (s : State)

theorem readReg_drawnState_ne {z : Reg} (hz : z ≠ VF) : readReg (drawnState x y n s) z = readReg s z :=
  readReg_writeReg_ne hz _ _

/-- A draw writes neither memory nor I, and its anchors only where they are VF. -/
theorem spriteAt_drawnState (hx : x ≠ VF) : spriteAt x (drawnState x y n s) = spriteAt x s := by
  have hcol : anchorCol (drawnState x y n s) x = anchorCol s x := by
    rw [anchorCol, readReg_drawnState_ne n s hx, anchorCol]
  funext i
  rw [spriteAt, hcol]
  rfl

theorem anchorRow_drawnState (hy : y ≠ VF) : anchorRow (drawnState x y n s) y = anchorRow s y := by
  rw [anchorRow, readReg_drawnState_ne n s hy, anchorRow]

end

section
variable {x y : Reg} {n : Nat} (s : State) (hn : n ≤ 32) (hx : x ≠ VF) (hy : y ≠ VF)
include hn hx hy

theorem drawnState_drawnState_video (r : Fin 32) :
    (drawnState x y n (drawnState x y n s)).video[r.val] = s.video[r.val] := by
  have hrow := anchorRow_drawnState (x := x) n s hy
  by_cases hr : InSprite s y n r
  · obtain ⟨i, hi, he⟩ := hr
    rw [drawnState_video_hit x y _ hn hi (hrow ▸ he), drawnState_video_hit x y s hn hi he, spriteAt_drawnState n s hx,
      BitVec.xor_assoc, BitVec.xor_self, BitVec.xor_zero]
  · have hr' : ¬ InSprite (drawnState x y n s) y n r := by
      unfold InSprite
      rwa [hrow]
    rw [drawnState_video_miss x y _ hr', drawnState_video_miss x y s hr]

/-- After a draw on a dark screen each target row holds its sprite row, so the second draw hits where that is lit. -/
theorem drawnCanvas_drawnState_hit (hdark : ∀ r : Fin 32, s.video[r.val] = 0) :
    (drawnCanvas x y n (drawnState x y n s)).hit = true ↔ ∃ i < n, memRead s (s.index.toNat + i) ≠ 0 := by
  rw [drawnCanvas_hit x y _ hn, spriteAt_drawnState n s hx]
  refine exists_congr fun i => and_congr_right fun hi => ?_
  have hrow := congrArg (targetRow · i) (anchorRow_drawnState (x := x) n s hy)
  rw [drawnState_video_hit x y s hn hi hrow, hdark]
  simp only [BitVec.ofNat_eq_ofNat, BitVec.zero_xor, BitVec.and_self]
  exact not_congr spriteRow_eq_zero_iff

end

theorem drawnCanvas_hit_of_dark (x y : Reg) {n : Nat} {s : State} (hn : n ≤ 32)
    (hdark : ∀ r : Fin 32, s.video[r.val] = 0) : (drawnCanvas x y n s).hit = false := by
  refine eq_false_of_ne_true fun h => ?_
  obtain ⟨i, _, hmeet⟩ := (drawnCanvas_hit x y s hn).mp h
  exact hmeet (by rw [hdark]; exact BitVec.zero_and)

theorem boolByte_eq_one_iff {c : Bool} : boolByte c = 1 ↔ c = true := by cases c <;> decide

/-- Settles O43: the two XORs of a row with one sprite row cancel. -/
theorem drawingTwiceRestoresVideo : Obligations.DrawingTwiceRestoresVideo := by
  intro x y n s hn hx hy
  have hn' : n ≤ 32 := by omega
  refine ⟨_, _, exec_drw x y n s, exec_drw x y n _, drawnState_drawnState_video s hn' hx hy,
    fun hdark => ⟨?_, ?_⟩⟩
  · rw [readReg_drawnState_VF, drawnCanvas_hit_of_dark x y hn' hdark]
    rfl
  · rw [readReg_drawnState_VF, boolByte_eq_one_iff, drawnCanvas_drawnState_hit s hn' hx hy hdark]

end Sys2Proof.Machine
end

section
/-! PROOFS, 45_io: the random source, the keys and the timers (R210 to R217; 40_fetch R113). -/

namespace Sys2Proof.Machine

/-! ### RND -/

/-- The state after a `RND Vx, byte`. -/
def drawnInto (x : Reg) (nn : Byte) (s : State) : State := writeReg x (drawnByte s &&& nn) (takeDraw s)

theorem exec_rnd (x : Reg) (nn : Byte) (s : State) : exec (.rnd x nn) s = .next (drawnInto x nn s) := rfl

theorem readReg_drawnInto (x : Reg) (nn : Byte) (s : State) : readReg (drawnInto x nn s) x = drawnByte s &&& nn :=
  readReg_writeReg_same _ _ _

/-- Settles O44: the draw is the source's first queued byte, or its stream's next value. -/
theorem rndStoresOneMaskedDraw : Obligations.RndStoresOneMaskedDraw := by
  intro x nn s
  refine ⟨_, exec_rnd x nn s, fun b bs hq => ?_, fun hq => ?_, exec_frame (exec_rnd x nn s)⟩
  · obtain ⟨hbyte, hsource⟩ := draw_of_queued hq
    exact ⟨fun k => by rw [readReg_drawnInto, hbyte, BitVec.getLsbD_and], hsource⟩
  · obtain ⟨hbyte, hsource⟩ := draw_of_empty hq
    exact ⟨fun k => by rw [readReg_drawnInto, hbyte, BitVec.getLsbD_and], hsource⟩

/-- The state after k RND instructions one after another, each fetched in its turn. -/
def afterDraws (x : Nat → Reg) (nn : Nat → Byte) (s : State) : Nat → State
  | 0 => s
  | k + 1 => drawnInto (x k) (nn k) (advancePc (afterDraws x nn s k))

section
variable (x : Nat → Reg) (nn : Nat → Byte) {s : State} {bytes rest : List Byte}
  (hq : s.source.queued = bytes ++ rest)
include hq

/-- Each RND takes one byte off, so after k of them the queue starts with byte k. -/
theorem afterDraws_source {k : Nat} (hk : k ≤ bytes.length) :
    (afterDraws x nn s k).source = ⟨bytes.drop k ++ rest, s.source.stream, s.source.drawn⟩ := by
  induction k with
  | zero => exact congrArg (fun q => RandomSource.mk q s.source.stream s.source.drawn) hq
  | succ k ih =>
    have hsource := ih (by omega)
    have hqueue : (advancePc (afterDraws x nn s k)).source.queued = bytes[k] :: (bytes.drop (k + 1) ++ rest) := by
      rw [advancePc_source, hsource, List.drop_eq_getElem_cons (by omega), List.cons_append]
    rw [afterDraws, drawnInto, writeReg_source, (draw_of_queued hqueue).2, advancePc_source, hsource]

theorem drawnByte_afterDraws {k : Nat} (hk : k < bytes.length) :
    drawnByte (advancePc (afterDraws x nn s k)) = bytes[k] := by
  refine (draw_of_queued (bs := bytes.drop (k + 1) ++ rest) ?_).1
  rw [advancePc_source, afterDraws_source x nn hq (by omega), List.drop_eq_getElem_cons hk, List.cons_append]

end

/-- Settles O57: the queue before the k-th RND starts with byte k, and after the last only the rest is queued. -/
theorem injectedBytesAreDrawnInOrder : Obligations.InjectedBytesAreDrawnInOrder := by
  intro bytes rest x nn s hq
  refine ⟨afterDraws x nn s, rfl, fun _ => rfl, fun k hk => ?_, ?_⟩
  · rw [afterDraws, readReg_drawnInto, drawnByte_afterDraws x nn hq hk]
  · rw [afterDraws_source x nn hq (Nat.le_refl _), List.drop_length, List.nil_append]

/-! ### Keys -/

/-- Settles O45: the skip of 41_control_flow, on the key that Vx names. -/
theorem skipsOnAKey : Obligations.SkipsOnAKey := by
  intro x k s hk
  have hkey : keyOf (readReg s x) = k := Fin.ext hk.symm
  exact ⟨⟨_, rfl, skipIf_spec s (by rw [hkey])⟩, ⟨_, rfl, skipIf_spec s (by rw [hkey, Bool.not_eq_true'])⟩⟩

/-- Settles O47: the two branches of the search for the lowest pressed key. -/
theorem keyWaitTakesTheLowestKey : Obligations.KeyWaitTakesTheLowestKey := by
  intro x s
  constructor
  · intro k hk hlower
    refine ⟨_, exec_ldVxK_of_some x (lowestKey_eq_some.mpr ⟨hk, hlower⟩), ?_, writeReg_frame x _ s⟩
    rw [readReg_writeReg_same, BitVec.toNat_ofNat, Nat.mod_eq_of_lt (by omega)]
  · intro hnone
    exact ⟨rewindPc s, exec_ldVxK_of_none x (lowestKey_eq_none.mpr hnone), rewindPc_pc_toNat s, rewindPc_frame s⟩

/-! ### Timers -/

/-- Settles O46: each is one write. -/
theorem timerTransfersCopy : Obligations.TimerTransfersCopy := fun x s =>
  ⟨⟨_, rfl, readReg_writeReg_same x _ s, writeReg_frame x _ s⟩, ⟨_, rfl, rfl, setDelay_frame _ s⟩,
    ⟨_, rfl, rfl, setSound_frame _ s⟩⟩

end Sys2Proof.Machine
end

section
/-! PROOFS, 30_encoding, 40_fetch and 60_exceptions: single words, single steps and whole calls (R100 to R112, R230 to
R234, R240; 92_eei_decisions D12, D18, D20, D23). -/

namespace Sys2Proof.Machine

/-- Settles O5: the decoder run on each of the words. -/
theorem specWordsDecode : Obligations.SpecWordsDecode := by
  unfold Obligations.SpecWordsDecode
  decide

/-! ### A step -/

/-- Settles O9: `step_of_decode`, with what the advance of `pc` writes. -/
theorem stepRunsTheDecodedInstruction : Obligations.StepRunsTheDecodedInstruction :=
  fun s _ hf hd => ⟨step_of_decode hf hd, wrapAddr_toNat _, advancePc_frame s⟩

/-- Settles O10: the two ways a fetch stops. -/
theorem illegalWordsAndFaultedStatesStop : Obligations.IllegalWordsAndFaultedStatesStop :=
  ⟨fun _ _ hf hd => step_of_reject hf hd, fun _ _ hf => step_of_marked hf⟩

/-- InvalidOpcode carries the address and the word of the fetch (60_exceptions R230). -/
theorem step_eq_invalidOpcode {s : State} {a w : Word} (h : step s = .fault (.invalidOpcode a w)) :
    a = s.pc ∧ w = fetchWord s s.pc.toNat := by
  cases hf : s.fault with
  | some e => cases (step_of_marked hf).symm.trans h
  | none =>
    obtain ⟨t, ht⟩ | hi := step_next_or_invalidOpcode hf
    · cases ht.symm.trans h
    · cases hi.symm.trans h
      exact ⟨rfl, rfl⟩

/-! ### Calls that stop, and calls of no steps -/

/-- Settles O49: the batch stops at its k-th state t, and what it leaves is t with `pc` advanced and the mark set. -/
theorem invalidOpcodeEndsTheCall : Obligations.InvalidOpcodeEndsTheCall := by
  intro k n s t a w hrun hstep hk
  obtain ⟨ha, hw⟩ := step_eq_invalidOpcode hstep
  have hbatch := runBatch_eq_error.mpr ⟨k, hk, t, core_run_eq_next.mp hrun, hstep, rfl⟩
  exact ⟨_, runCycle_eq_error.mpr hbatch, ha, hw, wrapAddr_toNat _, rfl, takeInvalidOpcode_frame a w t⟩

/-- Settles O54: the batch of no steps ends where it begins, marked or not. -/
theorem callOfNoStepsOnlyDecays : Obligations.CallOfNoStepsOnlyDecays := fun s =>
  ⟨decayTimers s, runCycle_of_runBatch_ok rfl, decayed_toNat _, decayed_toNat _, decayTimers_frame s⟩

/-! ### Programs that stand still -/

/-- A step that changes nothing is repeated for the whole batch. -/
theorem runBatch_of_step_self {s : State} (h : step s = .next s) (n : Nat) : runBatch n s = .ok s := by
  induction n with
  | zero => rfl
  | succ n ih => rw [runBatch_succ_next h, ih]

theorem runCycle_of_step_self {s : State} (h : step s = .next s) (n : Nat) : runCycle n s = .ok (decayTimers s) :=
  runCycle_of_runBatch_ok (runBatch_of_step_self h n)

/-- After the advance, `pc` set to what it was before gives the state back. -/
theorem setPc_advancePc {s : State} {n : Nat} (h : n % 4096 = s.pc.toNat) : setPc n (advancePc s) = s := by
  have hpc : wrapAddr n = s.pc := BitVec.eq_of_toNat_eq ((wrapAddr_toNat n).trans h)
  show { s with pc := wrapAddr n } = s
  rw [hpc]

/-- A key wait with no key pressed goes back to itself (45_io R215). -/
theorem rewindPc_advancePc {s : State} (h : s.pc.toNat < 4096) : rewindPc (advancePc s) = s := by
  refine setPc_advancePc ?_
  rw [advancePc_pc, wrapAddr_toNat]
  omega

/-- Settles O51: each step of the call is the key wait, which goes back to itself. -/
theorem keyWaitUsesUpTheCall : Obligations.KeyWaitUsesUpTheCall := by
  intro n x s hf hpc hd hkeys
  have hwait : exec (.ldVxK x) (advancePc s) = .next s := by
    have hnone : lowestKey (advancePc s) = none := lowestKey_eq_none.mpr hkeys
    rw [exec_ldVxK_of_none x hnone, rewindPc_advancePc hpc]
  exact runCycle_of_step_self ((step_of_decode hf hd).trans hwait) n

/-! ### Parked programs -/

section
variable {s : State} (h : s.Parked)
include h

theorem State.Parked.step_self : step s = .next s := by
  obtain ⟨hf, nnn, hd, hpc⟩ := h
  have hjump : exec (.jp nnn) (advancePc s) = .next (setPc nnn.toNat (advancePc s)) := rfl
  rw [step_of_decode hf hd, hjump, setPc_advancePc ((Nat.mod_eq_of_lt nnn.isLt).trans hpc)]

theorem State.Parked.decayTimers : (decayTimers s).Parked := h

theorem State.Parked.beginCall (c : HostCall) : (beginCall c s).Parked := h

end

/-- Settles O52: each step of the call is the jump, and the timers are no part of being parked. -/
theorem parkedProgramOnlyLosesTimerTicks : Obligations.ParkedProgramOnlyLosesTimerTicks :=
  fun n _ h => ⟨runCycle_of_step_self h.step_self n, h.decayTimers⟩

/-- Settles O53: every call of the list takes one off each timer and leaves the program parked. -/
theorem timersRunOutOverCalls : Obligations.TimersRunOutOverCalls := by
  intro calls
  induction calls with
  | nil => exact fun s h => ⟨s, rfl, rfl, rfl, h⟩
  | cons c cs ih =>
    intro s h
    have hcall : runCycle c.count (beginCall c s) = .ok (decayTimers (beginCall c s)) :=
      runCycle_of_step_self (h.beginCall c).step_self c.count
    obtain ⟨t, hruns, hdelay, hsound, hparked⟩ := ih _ (h.beginCall c).decayTimers
    refine ⟨t, ?_, ?_, ?_, hparked⟩
    · rw [runCalls, hcall]
      exact hruns
    · rw [hdelay, decayTimers_delayTimer, decayed_toNat, beginCall_delayTimer, List.length_cons]
      omega
    · rw [hsound, decayTimers_soundTimer, decayed_toNat, beginCall_soundTimer, List.length_cons]
      omega

end Sys2Proof.Machine
end

section
/-! PROOFS, 70_reset: the Initializer without a ROM, with one that does not fit, and its source (R260, R262). -/

namespace Sys2Proof.Machine

/-- Settles O22: the length is the only check. -/
theorem overlongRomIsRefused : Obligations.OverlongRomIsRefused :=
  fun _ _ _ hlong => if_neg (Nat.not_le_of_lt hlong)

/-- Settles O55: loading writes memory alone, and the host's writes before a call are the keys and the source. -/
theorem randomSourceIsTheHosts : Obligations.RandomSourceIsTheHosts := by
  constructor
  · intro glyphs rom r t h
    rw [eq_loadedState_of_initialise h, loadedState_eq]
  · intro c s
    refine ⟨fun r hr => ?_, fun hr => ?_, fun _ => rfl, beginCall_frame c s⟩
    · rw [beginCall_source, hr, Option.getD_some]
    · rw [beginCall_source, hr, Option.getD_none]

/-! ### The font that memory reads as before any write -/

theorem glyphByte_eq {k : Nat} (h : k < 80) : glyphByte k = Config.fontGlyphs[k] := dif_pos h

theorem unlistedByte_font {k : Nat} (h : k < 80) : unlistedByte (fontBase + k) = Config.fontGlyphs[k] := by
  have hfont := fontBase_add_80_le
  rw [unlistedByte, if_neg (by omega), if_pos (by omega), Nat.add_sub_cancel_left, glyphByte_eq h]

/-- Storing what unlisted addresses read as lists nothing. -/
theorem storeBytes_unlisted {s : State} (hmem : s.mem = []) (a : Nat) (bs : List Byte)
    (hbs : ∀ (k : Nat) (h : k < bs.length), bs[k] = unlistedByte ((a + k) % 4096)) : storeBytes a bs s = s := by
  induction bs generalizing a with
  | nil => rfl
  | cons b bs ih =>
    have hb : b = unlistedByte (a % 4096) := hbs 0 (Nat.zero_lt_succ _)
    have hwrite : memWrite a b s = s := by
      rw [memWrite, hmem, writeCell, if_pos hb, ← hmem]
    rw [storeBytes, hwrite, ih (a + 1) fun k hk => ?_]
    rw [show a + 1 + k = a + (k + 1) by omega]
    exact hbs (k + 1) (Nat.succ_lt_succ hk)

/-- Settles O21: every font byte is what its address reads as without being listed. -/
theorem resetIsTheInitialStateWithoutRom : Obligations.ResetIsTheInitialStateWithoutRom := by
  refine (initialise_of_fits (rom := []) _ _ (Nat.zero_le _)).trans (congrArg _ ?_)
  refine storeBytes_unlisted (s := State.reset) rfl fontBase _ fun k hk => ?_
  have hk80 : k < 80 := by rwa [Vector.length_toList] at hk
  have hfont := fontBase_add_80_le
  rw [Nat.mod_eq_of_lt (by omega), unlistedByte_font hk80, Vector.getElem_toList]

end Sys2Proof.Machine
end
